-- ==== Sys2Proof/Word.lean ====
section
/-!
DEFINITION. The words of the block and the plain arithmetic of `00_scope.md` rules R10 and R11.
-/

namespace Sys2Proof

/-- One 8-bit value: a channel (R7, R9 `CH_BITS`), an output byte (R48), the accumulator (R22). -/
abbrev Byte := BitVec 8

/-- One command word `CMD[32:0]` (R60, R9 `CMD_BITS`). -/
abbrev CmdWord := BitVec 33

/-- The 16-bit packed value of an opaque pixel (R83). -/
abbrev Packed := BitVec 16

/-- `ceil(a / b)` of natural numbers (R10). -/
def ceilDiv (a b : Nat) : Nat := (a + b - 1) / b

end Sys2Proof
end

