-- ==== Sys2Proof/Syntax.lean ====
section
/-!
DEFINITION. The commands of the block: one constructor per row of `spec/opcode_table.json` (R62).
-/

namespace Sys2Proof

/-- A command. The channels are 8-bit fields, so an out-of-domain channel cannot be written (R7, R61, U3, U4). -/
inductive Instr where
  /-- `PIX r, g, b, a`: encode one pixel (R140). -/
  | pix (r g b a : Byte)
  /-- `END`: close the frame (R141). It has no operand; the payload of its word is ignored (R63). -/
  | endFrame
  deriving DecidableEq, Repr

end Sys2Proof
end

