-- ==== Sys2Proof/WellFormed.lean ====
section
/-!
DEFINITION. Well-formedness. Every command is well formed, since every bit pattern of every field is in the
domain (R7, R65). What can be ill formed is a line of the command notation of `30_encoding.md` rules R70 and R71:
its operands are integers, and one outside 0..255 is an assembly error, not a command.
-/

namespace Sys2Proof

/-- Every command is legal, with every operand value (R7, R65, R140). -/
def Instr.wellFormed : Instr → Bool
  | .pix _ _ _ _ => true
  | .endFrame => true

/-- One line of a program in the notation of R70, with the pseudo-commands of R71. Operands are the integers
written on the line, before any check. -/
inductive AsmLine where
  /-- `PIX r, g, b, a`. -/
  | pix (r g b a : Nat)
  /-- `END`. -/
  | endFrame
  /-- `PIXO r, g, b`: a pixel with alpha 255. -/
  | pixo (r g b : Nat)
  /-- `CLR`: a transparent pixel. -/
  | clr
  /-- `FRAME s_0 ... s_(N-1)`: the samples `(r,g,b,a)` in order, then the end of the frame. -/
  | frame (samples : List (Nat × Nat × Nat × Nat))
  /-- `RESET`: not a command, a reset event between commands. -/
  | reset
  deriving DecidableEq, Repr

/-- An operand the notation admits: an integer 0..255 (R70). -/
def operandOk (x : Nat) : Bool := decide (x ≤ 255)

/-- The four operands of one sample are admitted (R70). -/
def sampleOk : Nat × Nat × Nat × Nat → Bool
  | (r, g, b, a) => operandOk r && operandOk g && operandOk b && operandOk a

/-- A line whose every operand is in 0..255 (R70). -/
def AsmLine.wellFormed : AsmLine → Bool
  | .pix r g b a => sampleOk (r, g, b, a)
  | .endFrame => true
  | .pixo r g b => operandOk r && operandOk g && operandOk b
  | .clr => true
  | .frame samples => samples.all sampleOk
  | .reset => true

end Sys2Proof
end

