-- ==== Sys2Proof/Decode.lean ====
section
/-!
DEFINITION. The command word of `30_encoding.md`: the opcode map, the total decoder, the encoder, and the reading
of a word written as a number.
-/

namespace Sys2Proof

/-- One row of the opcode map (R62). -/
structure OpRow where
  mnemonic  : String
  matchBits : CmdWord
  mask      : CmdWord
  deriving DecidableEq, Repr

/-- The row of `PIX`: bit 32 clear (R62). -/
def pixRow : OpRow := { mnemonic := "PIX", matchBits := 0x000000000#33, mask := 0x100000000#33 }

/-- The row of `END`: bit 32 set (R62). -/
def endRow : OpRow := { mnemonic := "END", matchBits := 0x100000000#33, mask := 0x100000000#33 }

/-- The opcode map, in the order of `spec/opcode_table.json` (R62). -/
def opRows : List OpRow := [pixRow, endRow]

/-- `w & mask = match` (R62). -/
def rowCovers (row : OpRow) (w : CmdWord) : Bool := (w &&& row.mask) == row.matchBits

/-- The 8-bit field `w[lo+7:lo]`, taken as it stands: no sign extension, scaling or bias (R11, R61). -/
def byteField (lo : Nat) (w : CmdWord) : Byte := BitVec.extractLsb' lo 8 w

/-- The decoder: total and stateless (R62, R65, R66). `op` alone selects the command; the payload of `END` is
ignored (R63); the fields of `PIX` are those of R60. -/
def decode (w : CmdWord) : Instr :=
  if rowCovers endRow w then .endFrame
  else .pix (byteField 24 w) (byteField 16 w) (byteField 8 w) (byteField 0 w)

/-- Why a number is not a command word. No 33-bit word is refused (R65). -/
inductive DecodeError where
  /-- The number needs more than the 33 bits of a command word (R60, R66): there is no longer form. -/
  | widerThanCommandWord (n : Nat)
  deriving DecidableEq, Repr

/-- Reading a command word written as a number: every 33-bit word decodes, a wider number is refused by name
(R60, R65, R66). -/
def decodeNat (n : Nat) : Except DecodeError Instr :=
  if n < 2 ^ 33 then .ok (decode (BitVec.ofNat 33 n)) else .error (.widerThanCommandWord n)

/-- The command the decoder reads from the low `nbits` bits of `w`, every bit above them 0. -/
def decodeTableWord (nbits w : Nat) : Option Instr :=
  match decodeNat (w % 2 ^ nbits) with
  | .ok i => some i
  | .error _ => none

/-- The opcode-map row of a command (R62). -/
def Instr.opRow : Instr → OpRow
  | .pix _ _ _ _ => pixRow
  | .endFrame => endRow

/-- The encoder (R60, R70): `PIX` is `(r << 24) | (g << 16) | (b << 8) | a` with bit 32 clear; `END` is its
canonical word `0x1_0000_0000` (R63). -/
def encode : Instr → CmdWord
  | .pix r g b a =>
    (r.setWidth 33 <<< 24) ||| (g.setWidth 33 <<< 16) ||| (b.setWidth 33 <<< 8) ||| a.setWidth 33
  | .endFrame => 0x100000000#33

/-! ### Every constructor's decoding, by words written out from R60 and R62 -/

/-- `op r g b a` of R60, field by field, for `PIX 200, 100, 50, 255` (R70 gives the word `0x0C86432FF`). -/
theorem decode_pix_word :
    decode 0b0_11001000_01100100_00110010_11111111#33 = .pix 200 100 50 255 := by decide

/-- `op = 1` and a payload of zeros (R63). -/
theorem decode_end_word :
    decode 0b1_00000000_00000000_00000000_00000000#33 = .endFrame := by decide

end Sys2Proof
end

