-- ==== Sys2Proof/Config.lean ====
section
/-!
DEFINITION. What an implementation of the block fixes (R9), and the identity a model records (R2). The value this
hardware takes is `Machine.hardwareConfig` in `Sys2Proof/Machine/Ops.lean`. The parameters of R9 that are no choice
(channel width, modulus 255, multipliers, shifts, sentinel, command width) stand in the types and operations.
-/

namespace Sys2Proof

/-- `PAD_MODE`: how many zero bits pad the last mask byte (R9, decision D6, U1). -/
inductive PadMode where
  /-- Pads `(8 - N mod 8) mod 8` bits: this hardware (R116). -/
  | deficit
  /-- Pads `N mod 8` bits: not this hardware, kept so that both readings can be stated (R117, D16). -/
  | remainder
  deriving DecidableEq, Repr

/-- The parameters a model takes as arguments: `PAD_MODE` alone (R9; the last line of 92_eei_decisions.md). It is
a build-time constant, not a register, and has no reset value (R29). -/
structure Config where
  padMode : PadMode
  deriving DecidableEq, Repr

/-- What R2 says a model records of the block's identity. -/
structure Identity where
  name           : String
  origin         : String
  sourceRevision : String
  instructionSet : List String
  options        : List String
  deriving DecidableEq, Repr

/-- The identity of this block (R2). The source gives no part number, vendor, version or ISA string. -/
def identity : Identity where
  name           := "TrainTimes Pixel Codec (PXC)"
  origin         := "D0liphin/TrainTimes"
  sourceRevision := "software-reimplementation specification v7"
  instructionSet := ["PIX", "END"]
  options        := []

end Sys2Proof
end

