-- ==== Sys2Proof/Machine/State.lean ====
section
/-!
DEFINITION. The state of the block (`10_state.md`), the inputs a step reads, the reasons a step can stop, and the
state after reset. Plain data throughout.
-/

namespace Sys2Proof.Machine

/-- What the environment does at one step, at the CMD port, the reset input and the sinks (R20, R40, R186;
log entry 1). -/
inductive Input where
  /-- The source sends a command word and the sinks take what it emits: the word is accepted and executed
  completely in this step (R16, R143). -/
  | command (w : CmdWord)
  /-- The reset input is applied between commands (R180). -/
  | reset
  /-- The reset input is applied while the source offers `lost`: reset wins, the word is not executed, not even
  in part (R162, R182). -/
  | resetOver (lost : CmdWord)
  /-- The source sends nothing: the block waits (R172, R186). -/
  | sourceIdle
  /-- A sink does not take bytes: the block waits and accepts no command (R186; log entry 3). -/
  | sinkStall
  deriving DecidableEq, Repr

/-- The two artifacts of one completed frame: `FRAMES` holds one such pair per executed `END` (R25). -/
structure Frame where
  /-- The pixel buffer, `.rgb565`: index = byte offset (R41). -/
  pix  : List Byte
  /-- The mask buffer, `.bmi`: index = byte offset (R44). -/
  mask : List Byte
  deriving DecidableEq, Repr

/-- Why the machine would stop with a fault. It has no constructor, so NOBODY raises one: the block has no
exception of any kind and every command has a next state (R160). Safe (log entry 9). -/
inductive Fault where
  deriving DecidableEq, Repr

/-- Why a step would have no meaning. -/
inductive Refusal where
  /-- An instruction whose arm is not written yet. Every arm is written, so NOBODY raises it. Safe (log entry 9). -/
  | notModelled (mnemonic : String)
  deriving DecidableEq, Repr

/-- The state: the two registers of the block (R22, R23), the three histories that observe it (R25), and the
inputs still to come on its ports (the model's own field, log entry 1). -/
structure State where
  /-- `ACC`: the mask bits of the group in progress, right-aligned, earliest bit highest (R22). -/
  acc     : Byte
  /-- `CNT`: how many mask bits `ACC` holds (R23). -/
  cnt     : BitVec 3
  /-- `PIXOUT`: bytes emitted on the PIX stream since the last frame boundary; index = offset (R25). -/
  pixOut  : List Byte
  /-- `MASKOUT`: bytes emitted on the MASK stream since the last frame boundary; index = offset (R25). -/
  maskOut : List Byte
  /-- `FRAMES`: the completed artifacts, oldest first (R25). -/
  frames  : List Frame
  /-- The inputs of the steps to come, next first: the CMD stream in arrival order, with the instants of reset and
  of waiting between its words (R40, R54). Not a register of the block (R31). -/
  cmd     : List Input
  deriving DecidableEq, Repr

/-- The machine right after reset: R34's table, with nothing sent since (R181). -/
def State.reset : State where
  acc     := 0x00#8
  cnt     := 0#3
  pixOut  := []
  maskOut := []
  frames  := []
  cmd     := []

end Sys2Proof.Machine
end

