-- ==== Sys2Proof/Machine/Flags.lean ====
section
/-!
DEFINITION. The block has no flags or condition codes (R28). These are the data-dependent tests R28 lists, which are
evaluated inside one command and leave no flag behind.
-/

namespace Sys2Proof.Machine

/-- `a == 0`, on all eight bits: the sample is fully transparent (R28, R87, decision D17). -/
def isTransparent (a : Byte) : Bool := a == 0#8

/-- `CNT == 7`: the mask bit now arriving completes the group (R28, R112). -/
def groupCompletes (cnt : BitVec 3) : Bool := cnt == 7#3

/-- `CNT == 0`: no mask bit is pending (R28, R116). -/
def groupEmpty (cnt : BitVec 3) : Bool := cnt == 0#3

end Sys2Proof.Machine
end

