-- ==== Sys2Proof/Machine/Operands.lean ====
section
/-!
DEFINITION. The operands of a command: one sample, its four channels taken as unsigned integers (R7, R61).
There is no register, address or immediate operand form beside them (R26, R148).
-/

namespace Sys2Proof.Machine

/-- One RGBA sample (R7). -/
structure Sample where
  r : Byte
  g : Byte
  b : Byte
  a : Byte
  deriving DecidableEq, Repr

/-- The unsigned integer 0..255 an 8-bit field spells (R61, `zext` of R12). -/
def zext (x : Byte) : Nat := x.toNat

/-- The command that carries a sample (R60, R140). -/
def Sample.toInstr (p : Sample) : Instr := .pix p.r p.g p.b p.a

end Sys2Proof.Machine
end

