-- ==== Sys2Proof/Machine/Ops.lean ====
section
/-!
DEFINITION. The named operations on the state: the writes of R12 (appends to the output streams, register writes),
the DONE token, reads of one output byte, the inputs a step takes, the reset event and waiting. The block has no
exception to take and none to return from (R160, R163, R164).
-/

namespace Sys2Proof.Machine

/-- The parameters of this hardware: `PAD_MODE = DEFICIT` (R9, R29, decision D6). -/
def hardwareConfig : Config := { padMode := .deficit }

/-! ### Emitting (R12, R48, R49, R148) -/

/-- `emit_pix(v)`: append one byte to the PIX stream, at the offset equal to its length (R12). -/
def State.emitPix (s : State) (v : Byte) : State := { s with pixOut := s.pixOut ++ [v] }

/-- `emit_mask(v)`: append one byte to the MASK stream, at the offset equal to its length (R12). -/
def State.emitMask (s : State) (v : Byte) : State := { s with maskOut := s.maskOut ++ [v] }

/-- `ACC <- acc` and `CNT <- cnt` (R12): the two registers are only ever written together. -/
def State.setMaskRegs (s : State) (acc : Byte) (cnt : BitVec 3) : State := { s with acc := acc, cnt := cnt }

/-- `emit_done()` in the history view: the frame is complete, its two buffers move into `FRAMES` and both streams
start again at offset 0 (R25, R51, R141). -/
def State.emitDone (s : State) : State :=
  { s with frames := s.frames ++ [{ pix := s.pixOut, mask := s.maskOut }], pixOut := [], maskOut := [] }

/-! ### Reading the histories (observation only: no command reads them, R40) -/

/-- The byte at an offset of the PIX stream of the frame in progress (R41). -/
def State.pixByte (s : State) (offset : Nat) : Option Byte := s.pixOut[offset]?

/-- The byte at an offset of the MASK stream of the frame in progress (R44). -/
def State.maskByte (s : State) (offset : Nat) : Option Byte := s.maskOut[offset]?

/-- One token of the DONE stream; it has no payload (R51, R69). -/
inductive DoneToken where
  | token
  deriving DecidableEq, Repr

/-- The DONE stream: one token per completed frame (R25, R51; log entry 7). -/
def State.doneStream (s : State) : List DoneToken := s.frames.map fun _ => .token

/-- The flat log of the PIX stream since reset, over completed frames and the one in progress (R25). -/
def State.pixLog (s : State) : List Byte := (s.frames.map Frame.pix).flatten ++ s.pixOut

/-- The flat log of the MASK stream since reset, over completed frames and the one in progress (R25). -/
def State.maskLog (s : State) : List Byte := (s.frames.map Frame.mask).flatten ++ s.maskOut

/-! ### Inputs, reset and waiting -/

/-- The input of the next step and the state without it; none when nothing has been sent (R54). -/
def State.takeInput (s : State) : Option (Input × State) :=
  match s.cmd with
  | [] => none
  | e :: rest => some (e, { s with cmd := rest })

/-- The reset event: every register and history at its reset value (R34, R180). It emits nothing (R182), and what
the environment does afterwards is not the block's to change. -/
def State.applyReset (s : State) : State := { State.reset with cmd := s.cmd }

/-- Waiting changes no state and emits nothing (R172, R186). -/
def State.wait (s : State) : State := s

/-- The source offers the word `w` next, before whatever `s.cmd` holds. -/
def State.offer (s : State) (w : CmdWord) : State := { s with cmd := .command w :: s.cmd }

end Sys2Proof.Machine
end

