-- ==== Sys2Proof/Machine/MaskEncoder.lean ====
section
/-!
DEFINITION. The alpha-mask encoder MSK (`41_mask_encoder.md`): the mask bit, shift-in, flush in both pad modes, and the
functions of a whole bit sequence: the source's literal packing and `pack_alpha_mask`.
-/

namespace Sys2Proof.Machine

/-- `mask_bit(a)`: 1 means opaque (R110). -/
def maskBit (a : Byte) : Bool := !isTransparent a

/-- `((ACC << 1) | m)[7:0]` (R112). -/
def shiftedIn (acc : Byte) (m : Bool) : Byte := (acc <<< 1) ||| (BitVec.ofBool m).setWidth 8

/-- `shift_in(m)`: the MASK half of a `PIX` command (R112). A full group's byte is emitted at once (R113). -/
def State.shiftIn (s : State) (m : Bool) : State :=
  if groupCompletes s.cnt then (s.emitMask (shiftedIn s.acc m)).setMaskRegs 0#8 0#3
  else s.setMaskRegs (shiftedIn s.acc m) (s.cnt + 1#3)

/-- What `flush()` emits with `PAD_MODE = DEFICIT`: the pending bits on top, zero bits below; nothing when none is
pending (R116, R119). -/
def State.flushDeficit (s : State) : State :=
  if groupEmpty s.cnt then s else s.emitMask (s.acc <<< (8 - s.cnt.toNat))

/-- What `flush()` emits with `PAD_MODE = REMAINDER` (R117; not this hardware; inferred, log entry 8). -/
def State.flushRemainder (s : State) : State :=
  let c := s.cnt.toNat
  if c = 0 then s
  else if c ≤ 3 then s.emitMask (s.acc <<< c)
  else if c = 4 then s.emitMask (s.acc <<< 4)
  else (s.emitMask (s.acc <<< (8 - c))).emitMask 0x00#8

/-- `flush()`: the padded last byte, then `ACC <- 0` and `CNT <- 0` (R116, R117). -/
def State.flush (s : State) (mode : PadMode) : State :=
  let emitted := match mode with
    | .deficit => s.flushDeficit
    | .remainder => s.flushRemainder
  emitted.setMaskRegs 0#8 0#3

/-! ### Functions of a whole bit sequence -/

/-- How many zero bits pad a sequence of `n` mask bits (R9, R116, R117). -/
def padCount : PadMode → Nat → Nat
  | .deficit, n => (8 - n % 8) % 8
  | .remainder, n => n % 8

/-- The sequence with its pad bits, all `false`, after the last real bit (R46, R118). -/
def padded (mode : PadMode) (bits : List Bool) : List Bool :=
  bits ++ List.replicate (padCount mode bits.length) false

/-- The source's accumulator after a group's bits: OR the bit in, then shift left, in 9 bits (R24, R114). -/
def literalAcc (group : List Bool) : BitVec 9 :=
  group.foldl (fun A m => (A ||| (BitVec.ofBool m).setWidth 9) <<< 1) 0#9

/-- `pack_group`, literal: the accumulator shifted right by 1 at the end (R114). A group shorter than 8 bits, which
only `REMAINDER` padding has, comes out right-aligned (R117). -/
def packGroup (group : List Bool) : Byte := (literalAcc group >>> 1).setWidth 8

/-- The `q`-th group of 8 consecutive bits of a sequence; the last may be shorter (R114). -/
def groupAt (bits : List Bool) (q : Nat) : List Bool := (bits.drop (8 * q)).take 8

/-- The source's packing of a whole sequence: pad, cut in groups of 8, pack each; `ceil(padded_length / 8)` bytes
(R114, R116, R117, R121). -/
def packLiteral (mode : PadMode) (bits : List Bool) : List Byte :=
  (List.range (ceilDiv (padded mode bits).length 8)).map fun q => packGroup (groupAt (padded mode bits) q)

/-- One bit of a padded sequence as a number, 0 outside it. -/
def bitAt (bits : List Bool) (i : Nat) : Nat := (bits.getD i false).toNat

/-- `pack_alpha_mask(m)` with `PAD_MODE = DEFICIT`, as R120 writes it: byte `q` is the sum over `j` in 0..7 of
`m'[8*q + j] << (7 - j)`. -/
def packAlphaMask (bits : List Bool) : List Byte :=
  let total := 8 * ceilDiv bits.length 8
  let bits' := bits ++ List.replicate (total - bits.length) false
  (List.range (total / 8)).map fun q =>
    BitVec.ofNat 8 (((List.range 8).map fun j => bitAt bits' (8 * q + j) <<< (7 - j)).sum)

end Sys2Proof.Machine
end

