-- ==== Sys2Proof/Machine/Quantizer.lean ====
section
/-!
DEFINITION. The RGB565 quantizer QNT (`40_quantizer.md`): pure functions of one sample (R21). Arithmetic is exact, on
natural numbers, and narrowed at the end (R82).
-/

namespace Sys2Proof.Machine

/-- `scale5(x) = floor(31 * x / 255)`, 5 bits: green and blue (R80). -/
def scale5 (x : Byte) : BitVec 5 := BitVec.ofNat 5 (31 * zext x / 255)

/-- `scale6(x) = floor(63 * x / 255)`, 6 bits: red (R81). -/
def scale6 (x : Byte) : BitVec 6 := BitVec.ofNat 6 (63 * zext x / 255)

/-- `packed = (g5 << 11) | (r6 << 5) | b5`: green on top, red in the middle (R83). -/
def pack (g5 : BitVec 5) (r6 : BitVec 6) (b5 : BitVec 5) : Packed :=
  (g5.setWidth 16 <<< 11) ||| (r6.setWidth 16 <<< 5) ||| b5.setWidth 16

/-- The packed value of a colour: each channel scaled on its own (R88, R94). -/
def packedOf (r g b : Byte) : Packed := pack (scale5 g) (scale6 r) (scale5 b)

/-- `hi = (packed >> 8) mod 255`, the preserved quirk: modulo 255, not 256 (R85). -/
def hiByte (packed : Packed) : Byte := BitVec.ofNat 8 ((packed >>> 8).toNat % 255)

/-- `lo = packed & 0xFF` (R86). -/
def loByte (packed : Packed) : Byte := (packed &&& 0x00FF#16).setWidth 8

/-- The pair emitted for a fully transparent sample, high byte first (R87). -/
def sentinel : Byte × Byte := (0xFF#8, 0xFE#8)

/-- `quantize_rgb565(r, g, b, a)`: the ordered pair (high byte, low byte) (R88). -/
def quantizeRgb565 (r g b a : Byte) : Byte × Byte :=
  if isTransparent a then sentinel
  else (hiByte (packedOf r g b), loByte (packedOf r g b))

/-- The pair of a sample (R88). -/
def Sample.pair (p : Sample) : Byte × Byte := quantizeRgb565 p.r p.g p.b p.a

/-- The PIX half of a `PIX` command: the pair, high byte first (R42, R140). -/
def State.emitPair (s : State) (p : Byte × Byte) : State := (s.emitPix p.1).emitPix p.2

end Sys2Proof.Machine
end

