-- ==== Sys2Proof/Machine/Commands.lean ====
section
/-!
DEFINITION. The meanings of the commands `PIX` and `END` (`42_commands.md` rules R140 and R141).
-/

namespace Sys2Proof.Machine

/-- What a `PIX` command does to the state: both units see the same sample (R140, decision D24). -/
def State.encodePixel (s : State) (p : Sample) : State := (s.emitPair p.pair).shiftIn (maskBit p.a)

/-- What an `END` command does to the state of a block built with the parameters `c` (R141). -/
def State.closeFrame (s : State) (c : Config) : State := (s.flush c.padMode).emitDone

/-- `PIX r, g, b, a`: two PIX bytes, and the mask bit into MSK (R140). Every operand value is legal. -/
def execPix (r g b a : Byte) (s : State) : Host.Outcome State Fault Refusal :=
  .next (s.encodePixel { r := r, g := g, b := b, a := a })

/-- `END`: flush, DONE, and the frame's two buffers into `FRAMES` (R141). -/
def execEnd (s : State) : Host.Outcome State Fault Refusal := .next (s.closeFrame hardwareConfig)

end Sys2Proof.Machine
end

