-- ==== Sys2Proof/Machine/Dispatch.lean ====
section
/-!
DEFINITION. One arm per command, each one direct call of its meaning.
-/

namespace Sys2Proof.Machine

def exec (i : Instr) (s : State) : Host.Outcome State Fault Refusal :=
  match i with
  | .pix r g b a => Sys2Proof.Machine.execPix r g b a s
  | .endFrame => Sys2Proof.Machine.execEnd s

end Sys2Proof.Machine
end

