-- ==== Sys2Proof/Machine/Step.lean ====
section
/-!
DEFINITION. One step: the acceptance and complete execution of one command, a reset, or waiting (R16, R20, R143, R180,
R186).
-/

namespace Sys2Proof.Machine

/-- One step of the block on the next input of its ports. With nothing sent it waits for ever (R146, R186). -/
def step (s : State) : Host.Outcome State Fault Refusal :=
  match s.takeInput with
  | none => .next s.wait
  | some (.command w, s') => exec (decode w) s'
  | some (.reset, s') => .next s'.applyReset
  | some (.resetOver _, s') => .next s'.applyReset
  | some (.sourceIdle, s') => .next s'.wait
  | some (.sinkStall, s') => .next s'.wait

/-- The state in which the source offers next the word whose low `nbits` bits are those of `w`, every bit above them
0: commands are not fetched, they are pushed on CMD (R27, R40; log entry 2). -/
def State.withFetchWord (s : State) (nbits w : Nat) : State := s.offer (BitVec.ofNat 33 (w % 2 ^ nbits))

end Sys2Proof.Machine
end

