-- ==== Sys2Proof/Machine/Frame.lean ====
section
/-!
DEFINITION. A frame as a whole (`42_commands.md` rule R142): the function `encode_frame`, and the commands that carry a
frame's samples.
-/

namespace Sys2Proof.Machine

/-- The two bytes of one pixel in stream order, high byte first (R41, R42). -/
def Sample.bytes (p : Sample) : List Byte := [p.pair.1, p.pair.2]

/-- The pixel buffer of a frame: the pairs of its samples, concatenated (R41, R142). -/
def pixelBuffer (samples : List Sample) : List Byte := samples.flatMap Sample.bytes

/-- The mask bits of a frame, one per sample, in order (R111). -/
def maskBits (samples : List Sample) : List Bool := samples.map fun p => maskBit p.a

/-- `encode_frame(s)` (R142). -/
def encodeFrame (samples : List Sample) : Frame :=
  { pix := pixelBuffer samples, mask := packAlphaMask (maskBits samples) }

/-- The commands of a frame: one `PIX` per sample, in order, then `END` (R71 `FRAME`, R142). -/
def frameInstrs (samples : List Sample) : List Instr := samples.map Sample.toInstr ++ [.endFrame]

/-- The source sends the frame's command words one after the other (R40, R54). -/
def frameInputs (samples : List Sample) : List Input :=
  (frameInstrs samples).map fun i => .command (encode i)

end Sys2Proof.Machine
end

