-- ==== Sys2Proof/Machine/Assembler.lean ====
section
/-!
DEFINITION. The command language of `30_encoding.md` section 3: assembling a line (R70), the pseudo-commands (R71), the
canonical disassembly (R72), and the text of a line. No command of the block depends on it. Text is a list of
characters. What R70 leaves open of the text is in log entry 12.
-/

namespace Sys2Proof.Machine

/-- Why a line is not assembled. -/
inductive AsmError where
  /-- An operand outside 0..255: an assembly error, not a command (R70). -/
  | operandOutOfRange
  /-- The text is no line of R70 or R71. -/
  | unreadableLine
  deriving DecidableEq, Repr

/-! ### Lines -/

/-- The expansion of a line into `PIX`, `END` and reset events (R71). -/
def expandLine : AsmLine → List AsmLine
  | .pix r g b a => [.pix r g b a]
  | .endFrame => [.endFrame]
  | .pixo r g b => [.pix r g b 255]
  | .clr => [.pix 0 0 0 0]
  | .frame samples => samples.map (fun (r, g, b, a) => .pix r g b a) ++ [.endFrame]
  | .reset => [.reset]

/-- The word `(r << 24) | (g << 16) | (b << 8) | a` of a `PIX` line (R70). -/
def pixWord (r g b a : Nat) : CmdWord :=
  encode (.pix (BitVec.ofNat 8 r) (BitVec.ofNat 8 g) (BitVec.ofNat 8 b) (BitVec.ofNat 8 a))

/-- What the source sends for an expanded line; nothing is left of a line that still needs expanding. -/
def coreInputs : AsmLine → List Input
  | .pix r g b a => [.command (pixWord r g b a)]
  | .endFrame => [.command (encode .endFrame)]
  | .reset => [.reset]
  | .pixo _ _ _ => []
  | .clr => []
  | .frame _ => []

/-- Assembling one line: an operand outside 0..255 is an error (R70, R71). DESIGN CHOICE: in a `FRAME` line one such operand
makes the whole line an error (log entry 18). -/
def assembleLine (l : AsmLine) : Except AsmError (List Input) :=
  if l.wellFormed then .ok ((expandLine l).flatMap coreInputs) else .error .operandOutOfRange

/-- The inputs of a list of lines, executed top to bottom (R70). DESIGN CHOICE: one line in error makes the whole list an
error with no inputs, that of the topmost such line (log entry 18). -/
def assembleLines : List AsmLine → Except AsmError (List Input)
  | [] => .ok []
  | l :: rest =>
    match assembleLine l, assembleLines rest with
    | .ok here, .ok later => .ok (here ++ later)
    | .error e, _ => .error e
    | _, .error e => .error e

/-- The canonical disassembly of a word: its four fields, or `END` whatever the payload holds (R72). -/
def disassemble (w : CmdWord) : AsmLine :=
  match decode w with
  | .pix r g b a => .pix (zext r) (zext g) (zext b) (zext a)
  | .endFrame => .endFrame

/-! ### Text -/

/-- The value of a hexadecimal digit, either case. -/
def hexDigit? (c : Char) : Option Nat :=
  let n := c.toNat
  if 48 ≤ n ∧ n ≤ 57 then some (n - 48)
  else if 65 ≤ n ∧ n ≤ 70 then some (n - 55)
  else if 97 ≤ n ∧ n ≤ 102 then some (n - 87)
  else none

/-- A number in base `base`, most significant digit first, at least one digit. -/
def readDigits (base : Nat) (cs : List Char) : Option Nat :=
  if cs.isEmpty then none
  else cs.foldl (fun acc c =>
    match acc, hexDigit? c with
    | some v, some d => if d < base then some (base * v + d) else none
    | _, _ => none) (some 0)

/-- An operand: decimal, or hexadecimal after `0x` (R70). -/
def readNumber : List Char → Option Nat
  | '0' :: 'x' :: cs => readDigits 16 cs
  | cs => readDigits 10 cs

/-- The pieces of a line. -/
inductive Token where
  | word (cs : List Char)
  | comma
  | lparen
  | rparen
  deriving DecidableEq, Repr

/-- Closes the word being read. -/
def closeWord : List Char × List Token → List Char × List Token
  | ([], out) => ([], out)
  | (c :: cs, out) => ([], .word (c :: cs).reverse :: out)

/-- One character: blanks separate, comma and parentheses stand for themselves. -/
def readChar (st : List Char × List Token) (c : Char) : List Char × List Token :=
  if c = ' ' ∨ c = '\t' ∨ c = '\r' then closeWord st
  else if c = ',' then ([], .comma :: (closeWord st).2)
  else if c = '(' then ([], .lparen :: (closeWord st).2)
  else if c = ')' then ([], .rparen :: (closeWord st).2)
  else (c :: st.1, st.2)

/-- The pieces of a line, a `#` and what follows it left out (R70). -/
def tokens (line : List Char) : List Token :=
  (closeWord ((line.takeWhile fun c => c != '#').foldl readChar ([], []))).2.reverse

/-- The samples `(r,g,b,a)` of a `FRAME` line (R71). -/
def readSamples : List Token → Option (List (Nat × Nat × Nat × Nat))
  | [] => some []
  | .lparen :: .word r :: .comma :: .word g :: .comma :: .word b :: .comma :: .word a :: .rparen :: rest =>
    match readNumber r, readNumber g, readNumber b, readNumber a, readSamples rest with
    | some r, some g, some b, some a, some more => some ((r, g, b, a) :: more)
    | _, _, _, _, _ => none
  | _ => none

/-- Three operands between commas (R71 `PIXO`). -/
def readThree : List Token → Option (Nat × Nat × Nat)
  | [.word r, .comma, .word g, .comma, .word b] =>
    match readNumber r, readNumber g, readNumber b with
    | some r, some g, some b => some (r, g, b)
    | _, _, _ => none
  | _ => none

/-- Four operands between commas (R70 `PIX`). -/
def readFour : List Token → Option (Nat × Nat × Nat × Nat)
  | [.word r, .comma, .word g, .comma, .word b, .comma, .word a] =>
    match readNumber r, readNumber g, readNumber b, readNumber a with
    | some r, some g, some b, some a => some (r, g, b, a)
    | _, _, _, _ => none
  | _ => none

/-- The line that a mnemonic and its operands make (R70, R71). -/
def lineOf (mnemonic : List Char) (operands : List Token) : Option AsmLine :=
  if mnemonic = ['P', 'I', 'X'] then (readFour operands).map fun (r, g, b, a) => .pix r g b a
  else if mnemonic = ['P', 'I', 'X', 'O'] then (readThree operands).map fun (r, g, b) => .pixo r g b
  else if mnemonic = ['F', 'R', 'A', 'M', 'E'] then (readSamples operands).map .frame
  else if operands ≠ [] then none
  else if mnemonic = ['E', 'N', 'D'] then some .endFrame
  else if mnemonic = ['C', 'L', 'R'] then some .clr
  else if mnemonic = ['R', 'E', 'S', 'E', 'T'] then some .reset
  else none

/-- The lines one line of text holds: none when it is blank or only a comment, else one (R70). -/
def parseLine (text : List Char) : Except AsmError (List AsmLine) :=
  match tokens text with
  | [] => .ok []
  | .word m :: operands =>
    match lineOf m operands with
    | some l => .ok [l]
    | none => .error .unreadableLine
  | _ => .error .unreadableLine

/-- The lines of a text, cut at each newline. -/
def splitLines : List Char → List (List Char)
  | [] => [[]]
  | c :: cs =>
    match splitLines cs with
    | [] => [[]]
    | l :: rest => if c = '\n' then [] :: l :: rest else (c :: l) :: rest

/-- The lines a text holds, one command per line, in order (R70). DESIGN CHOICE: one unreadable line makes the whole text
unreadable (log entry 18). -/
def parseLines : List (List Char) → Except AsmError (List AsmLine)
  | [] => .ok []
  | t :: rest =>
    match parseLine t, parseLines rest with
    | .ok here, .ok later => .ok (here ++ later)
    | .error e, _ => .error e
    | _, .error e => .error e

/-- Assembling a text: the inputs the source then sends, top to bottom (R70). DESIGN CHOICE: all lines are read before any
operand is checked, so an unreadable line anywhere is reported before an operand out of range (log entry 18). -/
def assembleText (text : List Char) : Except AsmError (List Input) :=
  match parseLines (splitLines text) with
  | .ok ls => assembleLines ls
  | .error e => .error e

/-- One hexadecimal digit, capital. -/
def hexChar (d : Nat) : Char := Char.ofNat (if d < 10 then 48 + d else 55 + d)

/-- A word written as nine hexadecimal digits after `0x` (R70). -/
def wordText (w : CmdWord) : List Char :=
  ['0', 'x'] ++ (List.range 9).map fun k => hexChar (w.toNat / 16 ^ (8 - k) % 16)

/-- An integer in decimal (R72). -/
def decimalText (n : Nat) : List Char := Nat.toDigits 10 n

/-- The text of a word's canonical disassembly: `PIX r, g, b, a` in decimal, or `END` (R72). -/
def disassemblyText (w : CmdWord) : List Char :=
  match decode w with
  | .pix r g b a =>
    ['P', 'I', 'X', ' '] ++ decimalText (zext r) ++ [',', ' '] ++ decimalText (zext g) ++ [',', ' '] ++
      decimalText (zext b) ++ [',', ' '] ++ decimalText (zext a)
  | .endFrame => ['E', 'N', 'D']

end Sys2Proof.Machine
end

