-- ==== Sys2Proof/Machine/Consumer.lean ====
section
/-!
DEFINITION. What a consumer of the two buffers computes (R95, R44, R193). None of it is a function of the block.
-/

namespace Sys2Proof.Machine

/-- What a pair of the PIX stream says of its pixel (R95). -/
inductive PixelReading where
  /-- The sentinel: the pixel was fully transparent. -/
  | transparent
  /-- `hi != 0`: the three fields are known. -/
  | colour (g5 : BitVec 5) (r6 : BitVec 6) (b5 : BitVec 5)
  /-- `hi = 0`: blue and the low three bits of red are known; green and the high bits of red are one of two
  possibilities (R90). -/
  | highByteLost (r6low : BitVec 3) (b5 : BitVec 5)
  deriving DecidableEq, Repr

/-- Reading a pixel back from its pair (R95). -/
def readPair (hi lo : Byte) : PixelReading :=
  if hi = 0xFF#8 ∧ lo = 0xFE#8 then .transparent
  else if hi ≠ 0x00#8 then
    .colour (hi.extractLsb' 3 5) (hi.extractLsb' 0 3 ++ lo.extractLsb' 5 3) (lo.extractLsb' 0 5)
  else .highByteLost (lo.extractLsb' 5 3) (lo.extractLsb' 0 5)

/-- The field values a reading leaves possible: a lost high byte was either `g5 = 0, r6[5:3] = 0` or
`g5 = 31, r6[5:3] = 7` (R95). -/
def PixelReading.admits (reading : PixelReading) (g5 : BitVec 5) (r6 : BitVec 6) (b5 : BitVec 5) : Bool :=
  match reading with
  | .transparent => false
  | .colour g r b => g5 == g && r6 == r && b5 == b
  | .highByteLost low b =>
    b5 == b && ((g5 == 0#5 && r6 == 0#3 ++ low) || (g5 == 31#5 && r6 == 7#3 ++ low))

/-- The index of the pixel in column `x`, row `y` of an image of width `w`, row-major (R8). -/
def pixelIndex (w x y : Nat) : Nat := y * w + x

/-- The mask bit of pixel `i`: bit `7 - (i mod 8)` of the byte at offset `floor(i / 8)` (R44). -/
def maskBitOf (mask : List Byte) (i : Nat) : Option Bool :=
  mask[i / 8]?.map fun byte => byte.getLsbD (7 - i % 8)

/-- The mask bit of pixel `(x, y)` of an image of width `w`: rows need not start at a byte (R193). -/
def maskBitAt (mask : List Byte) (w x y : Nat) : Option Bool := maskBitOf mask (pixelIndex w x y)

end Sys2Proof.Machine
end

