-- ==== Sys2Proof/Machine/Delivery.lean ====
section
/-!
DEFINITION. What the sinks may see (R55, R56, U7): the bytes and DONE tokens in one sequence, in any order that keeps
each stream's own, cut at the DONE tokens. The block's state holds no such sequence: it keeps the two streams apart.
-/

namespace Sys2Proof.Machine

/-- One transfer at an output port: a byte on PIX, a byte on MASK (R48), a token on DONE (R51). -/
inductive Delivered where
  | pix (v : Byte)
  | mask (v : Byte)
  | done
  deriving DecidableEq, Repr

/-- The bytes the pixel sink takes, in order (R54). -/
def pixOf (obs : List Delivered) : List Byte :=
  obs.filterMap fun
    | .pix v => some v
    | .mask _ => none
    | .done => none

/-- The bytes the mask sink takes, in order (R54). -/
def maskOf (obs : List Delivered) : List Byte :=
  obs.filterMap fun
    | .pix _ => none
    | .mask v => some v
    | .done => none

/-- The transfers cut at each DONE token: those of the completed frames, and those since the last token (R51). -/
def cutAtDone : List Delivered → List (List Delivered) × List Delivered
  | [] => ([], [])
  | .done :: rest => ([] :: (cutAtDone rest).1, (cutAtDone rest).2)
  | d :: rest =>
    match cutAtDone rest with
    | ([], tail) => ([], d :: tail)
    | (first :: others, tail) => ((d :: first) :: others, tail)

/-- The two buffers a sequence of transfers delivers. -/
def deliveredFrame (obs : List Delivered) : Frame := { pix := pixOf obs, mask := maskOf obs }

/-- `obs` is a legal observation of the history of `s`: between two DONE tokens exactly one frame's buffers, since the
last one the frame in progress, each stream in its own order and no order between the two (R51, R54, R55, R56). -/
def State.admits (s : State) (obs : List Delivered) : Bool :=
  (cutAtDone obs).1.map deliveredFrame == s.frames &&
    deliveredFrame (cutAtDone obs).2 == { pix := s.pixOut, mask := s.maskOut }

end Sys2Proof.Machine
end

