-- ==== Sys2Proof/Safety.lean ====
section
/-!
DEFINITION. The terms claims are stated in: running several commands or steps, a frame boundary, and the invariant of
the block's state and histories.
-/

namespace Sys2Proof

open Machine

/-- Commands executed one after the other, each completely before the next (R54, R143). -/
def execAll : List Instr → State → Host.Outcome State Fault Refusal
  | [], s => .next s
  | i :: rest, s =>
    match exec i s with
    | .next s' => execAll rest s'
    | .fault f => .fault f
    | .refused r => .refused r

/-- `k` steps of the machine, one after the other. -/
def stepMany : Nat → State → Host.Outcome State Fault Refusal
  | 0, s => .next s
  | k + 1, s =>
    match step s with
    | .next s' => stepMany k s'
    | .fault f => .fault f
    | .refused r => .refused r

/-- A step that neither faults nor refuses: every step is safe (R160). -/
def StepSafe (s : State) : Prop := ∃ t, step s = .next t

/-- The block stands at a frame boundary: after reset or after an `END` (R35, R142). -/
abbrev AtFrameStart (s : State) : Prop := s.acc = 0#8 ∧ s.cnt = 0#3 ∧ s.pixOut = [] ∧ s.maskOut = []

/-- From the state `s`, the commands of a frame with these samples complete and append the frame `f` to `FRAMES`
(R142). -/
def FrameYields (s : State) (samples : List Sample) (f : Frame) : Prop :=
  ∃ t, execAll (frameInstrs samples) s = .next t ∧ t.frames = s.frames ++ [f]

/-- The number a sequence of mask bits spells, the earliest bit most significant (R22). -/
def bitsValue (bits : List Bool) : Nat := bits.foldl (fun v m => 2 * v + m.toNat) 0

/-- How many of `n` mask bits lie in completed groups (R112, R188). -/
def groupedBits (n : Nat) : Nat := 8 * (n / 8)

/-- The mask bits a pixel buffer itself tells: 0 exactly for the pairs that are the sentinel (R89, R123). -/
def sentinelBits : List Byte → List Bool
  | hi :: lo :: rest => (!(hi == 0xFF#8 && lo == 0xFE#8)) :: sentinelBits rest
  | _ => []

/-- The two buffers of a completed frame agree: whole pairs (R43), and the mask buffer is the packing of the mask bits
the pixel buffer tells (R45, R120, R123). -/
abbrev FrameConsistent (f : Frame) : Prop :=
  f.pix.length = 2 * (sentinelBits f.pix).length ∧ f.mask = packAlphaMask (sentinelBits f.pix)

/-- The frame in progress agrees with itself: whole pairs on PIX; on MASK the full groups of the mask bits they tell;
in `ACC`, right-aligned, the remaining ones; in `CNT` their number (R22, R23, R112, R123, R188). -/
abbrev ProgressConsistent (s : State) : Prop :=
  s.pixOut.length = 2 * (sentinelBits s.pixOut).length ∧
  s.maskOut = packAlphaMask ((sentinelBits s.pixOut).take (groupedBits (sentinelBits s.pixOut).length)) ∧
  s.cnt.toNat = (sentinelBits s.pixOut).length % 8 ∧
  s.acc.toNat = bitsValue ((sentinelBits s.pixOut).drop (groupedBits (sentinelBits s.pixOut).length))

/-- The invariant of the block: the frame in progress and every completed frame are consistent. -/
abbrev Consistent (s : State) : Prop := ProgressConsistent s ∧ ∀ f ∈ s.frames, FrameConsistent f

end Sys2Proof
end

