-- ==== Sys2Proof/Certificates/Slice0/Obligations.lean ====
section
/-!
DEFINITION. The statements for the provers. Where a rule gives a formula it is written out on natural numbers, not by
the model's own functions.
-/

open Sys2Proof Sys2Proof.Machine

/-! ### Reset, waiting, and what a step is -/

/-- R34: the reset values of every piece of state, and `PAD_MODE` constant `DEFICIT`. -/
def Obligations.ResetStateHasTheTabulatedValues : Prop :=
  State.reset.acc = 0x00#8 ∧ State.reset.cnt = 0#3 ∧ State.reset.pixOut = [] ∧ State.reset.maskOut = [] ∧
    State.reset.frames = [] ∧ hardwareConfig.padMode = .deficit

/-- R180: a reset is a step of its own; it sets `ACC` and `CNT` to 0 and starts a new history, whatever the state. -/
def Obligations.ResetEventStartsANewHistory : Prop :=
  ∀ (s : State) (rest : List Input), ∃ t, step { s with cmd := .reset :: rest } = .next t ∧
    t.acc = 0x00#8 ∧ t.cnt = 0#3 ∧ t.pixOut = [] ∧ t.maskOut = [] ∧ t.frames = []

/-- R162, R182: reset wins over a coinciding command, of which not even a part is executed; the pending mask bits are
discarded and no DONE token is emitted. That the lost word leaves the stream is the model's (log entry 4). -/
def Obligations.ResetWinsOverACoincidingCommand : Prop :=
  ∀ (s : State) (w : CmdWord) (rest : List Input),
    ∃ t, step { s with cmd := .resetOver w :: rest } = .next t ∧
      step { s with cmd := .reset :: rest } = .next t ∧
      AtFrameStart t ∧ t.pixLog = [] ∧ t.maskLog = [] ∧ t.doneStream = [] ∧ t.cmd = rest

/-- R172: a block with no command to execute waits, holding `ACC` and `CNT` (and everything else). -/
def Obligations.NoCommandMeansWaiting : Prop :=
  (∀ s : State, s.cmd = [] → ∀ k, stepMany k s = .next s) ∧
  ∀ (s : State) (rest : List Input), step { s with cmd := .sourceIdle :: rest } = .next { s with cmd := rest }

/-- R186: while a sink does not take bytes the block waits, executes nothing, changes nothing and loses nothing: the
words behind the stall are executed afterwards. -/
def Obligations.StalledSinkMeansWaiting : Prop :=
  ∀ (s : State) (n : Nat) (rest : List Input),
    stepMany n { s with cmd := List.replicate n .sinkStall ++ rest } = .next { s with cmd := rest }

/-- R16, R54, R143: a step on a command word is the execution of the command it decodes to, with that word and only
that word taken from the stream. `withFetchWord` offers exactly the word written as a number. -/
def Obligations.StepRunsTheDecodedCommand : Prop :=
  (∀ (s : State) (w : CmdWord) (rest : List Input),
    step { s with cmd := .command w :: rest } = exec (decode w) { s with cmd := rest }) ∧
  ∀ (s : State) (nbits w : Nat), w < 2 ^ 33 → w < 2 ^ nbits →
    step (s.withFetchWord nbits w) = exec (decode (BitVec.ofNat 33 w)) s

/-- R160: no command can fault; every step and every command has a next state. -/
def Obligations.EveryStepHasANextState : Prop :=
  (∀ s : State, StepSafe s) ∧ ∀ (i : Instr) (s : State), ∃ t, exec i s = .next t

/-! ### The command word -/

/-- R60, R61, R62, R65: bit 32 selects the command, the four bytes below are the channels as unsigned integers, and the
two commands partition all words. -/
def Obligations.DecodeReadsTheFields : Prop :=
  ∀ w : CmdWord,
    (w.toNat < 2 ^ 32 ∧
      ∃ r g b a : Byte, decode w = .pix r g b a ∧
        w.toNat = 2 ^ 24 * r.toNat + 2 ^ 16 * g.toNat + 2 ^ 8 * b.toNat + a.toNat) ∨
    (2 ^ 32 ≤ w.toNat ∧ decode w = .endFrame)

/-- R62: `w & mask = match` holds of exactly one row, and the decoder gives that row's command. -/
def Obligations.OpcodeRowsPartitionTheWords : Prop :=
  ∀ w : CmdWord, ∃ row ∈ opRows, rowCovers row w = true ∧ (decode w).opRow = row ∧
    ∀ row' ∈ opRows, rowCovers row' w = true → row' = row

/-- R63: all words with `op = 1` are the same command with the same effect; the canonical word is `0x1_0000_0000`. -/
def Obligations.EndIgnoresItsPayload : Prop :=
  (∀ w w' : CmdWord, w.getLsbD 32 = true → w'.getLsbD 32 = true →
    ∀ s, exec (decode w) s = exec (decode w') s ∧ exec (decode w) s = exec .endFrame s) ∧
  encode .endFrame = 0x100000000#33

/-- R64: `PIX` with `a = 0` ignores the colour; for `a != 0` the value of `a` beyond being non-zero is ignored. -/
def Obligations.TransparentPixelIgnoresItsColour : Prop :=
  (∀ (r g b r' g' b' : Byte) (s : State), exec (.pix r g b 0) s = exec (.pix r' g' b' 0) s) ∧
  ∀ (r g b a a' : Byte) (s : State), a ≠ 0 → a' ≠ 0 → exec (.pix r g b a) s = exec (.pix r g b a') s

/-- R60, R62, R70: decoding an encoded command gives it back, with every operand at every value. -/
def Obligations.DecodeUndoesEncode : Prop :=
  ∀ i : Instr, i.wellFormed = true ∧ decode (encode i) = i ∧ ∀ i' : Instr, encode i = encode i' → i = i'

/-- R72: `op = 0` prints `PIX` and the four fields in decimal, `op = 1` prints `END` whatever the payload; assembling the
disassembly of a `PIX` word gives the word back, of an `END` word the canonical word. -/
def Obligations.DisassemblyIsCanonical : Prop :=
  ∀ w : CmdWord,
    (w.getLsbD 32 = false →
      ∃ r g b a, r ≤ 255 ∧ g ≤ 255 ∧ b ≤ 255 ∧ a ≤ 255 ∧ w.toNat = 2 ^ 24 * r + 2 ^ 16 * g + 2 ^ 8 * b + a ∧
        disassemble w = .pix r g b a ∧
        disassemblyText w = ['P', 'I', 'X', ' '] ++ Nat.toDigits 10 r ++ [',', ' '] ++ Nat.toDigits 10 g ++ [',', ' '] ++
          Nat.toDigits 10 b ++ [',', ' '] ++ Nat.toDigits 10 a ∧
        assembleLine (disassemble w) = .ok [.command w]) ∧
    (w.getLsbD 32 = true →
      disassemble w = .endFrame ∧ disassemblyText w = ['E', 'N', 'D'] ∧
      assembleLine (disassemble w) = .ok [.command 0x100000000#33])

/-- R70, R72, in characters: the text of a word's disassembly assembles to the word, of an `END` word to the canonical
word. How the text is cut into pieces is the model's (log entry 12). -/
def Obligations.AssemblingADisassembledTextGivesTheWordBack : Prop :=
  ∀ w : CmdWord,
    assembleText (disassemblyText w) =
      .ok [.command (if w.getLsbD 32 = true then 0x100000000#33 else w)]

/-- R70: a `PIX` line assembles to the word `(r << 24) | (g << 16) | (b << 8) | a`, and an operand outside 0..255 is an
assembly error. -/
def Obligations.PixLineAssemblesOrIsRefused : Prop :=
  ∀ r g b a : Nat,
    assembleLine (.pix r g b a) =
      if r ≤ 255 ∧ g ≤ 255 ∧ b ≤ 255 ∧ a ≤ 255 then
        .ok [.command (BitVec.ofNat 33 (r * 2 ^ 24 + g * 2 ^ 16 + b * 2 ^ 8 + a))]
      else .error .operandOutOfRange

/-- R71: the expansions of the pseudo-commands. `PIXO` goes with its `PIX` line for every operand; a `FRAME` line is given
here for samples, whose operands are admitted, and for every operand in `FrameLineAssemblesOrIsRefused`. -/
def Obligations.PseudoCommandsExpand : Prop :=
  (∀ r g b, assembleLine (.pixo r g b) = assembleLine (.pix r g b 255)) ∧
  assembleLine .clr = assembleLine (.pix 0 0 0 0) ∧
  (∀ samples : List Sample,
    assembleLine (.frame (samples.map fun p => (p.r.toNat, p.g.toNat, p.b.toNat, p.a.toNat))) =
      .ok (frameInputs samples)) ∧
  assembleLine .reset = .ok [.reset]

/-- R70, R71: a `FRAME` line assembles to one `PIX` word per sample, in order, and then the word of `END`; if any operand of
any sample is outside 0..255 the whole line is an assembly error (that it is the whole line is the model's choice, log
entry 18). -/
def Obligations.FrameLineAssemblesOrIsRefused : Prop :=
  ∀ samples : List (Nat × Nat × Nat × Nat),
    ((∀ p ∈ samples, p.1 ≤ 255 ∧ p.2.1 ≤ 255 ∧ p.2.2.1 ≤ 255 ∧ p.2.2.2 ≤ 255) →
      assembleLine (.frame samples) =
        .ok ((samples.map fun p => .command
          (BitVec.ofNat 33 (p.1 * 2 ^ 24 + p.2.1 * 2 ^ 16 + p.2.2.1 * 2 ^ 8 + p.2.2.2))) ++ [.command 0x100000000#33])) ∧
    ((∃ p ∈ samples, 255 < p.1 ∨ 255 < p.2.1 ∨ 255 < p.2.2.1 ∨ 255 < p.2.2.2) →
      assembleLine (.frame samples) = .error .operandOutOfRange)

/-- R60, R62: words written out field by field decode to the commands they stand for. A sanity statement. -/
def Obligations.WrittenOutWordsDecode : Prop :=
  decode 0b0_11001000_01100100_00110010_11111111#33 = .pix 200 100 50 255 ∧
  decode 0b0_00001100_00100010_00111000_00000000#33 = .pix 12 34 56 0 ∧
  decode 0b1_00000000_00000000_00000000_00000000#33 = .endFrame ∧
  decode 0b1_11011110_10101101_10111110_11101111#33 = .endFrame

/-! ### The quantizer -/

/-- R80: `scale5(x) = floor(31 * x / 255)`, its thresholds `ceil(255 * k / 31)`, and its corner cases. -/
def Obligations.ScaleFiveIsTheFloor : Prop :=
  (∀ x : Byte, (scale5 x).toNat = 31 * x.toNat / 255) ∧
  (∀ x : Byte, ∀ k ≤ 31, k ≤ (scale5 x).toNat ↔ ceilDiv (255 * k) 31 ≤ x.toNat) ∧
  (∀ x : Byte, scale5 x = 31#5 ↔ x = 255#8) ∧
  (List.range 32).map (fun k => ceilDiv (255 * k) 31) =
    [0, 9, 17, 25, 33, 42, 50, 58, 66, 75, 83, 91, 99, 107, 116, 124, 132, 140, 149, 157, 165, 173, 181, 190, 198, 206,
      214, 223, 231, 239, 247, 255]

/-- R81: `scale6(x) = floor(63 * x / 255)`, its thresholds `ceil(255 * k / 63)`, and its corner cases. -/
def Obligations.ScaleSixIsTheFloor : Prop :=
  (∀ x : Byte, (scale6 x).toNat = 63 * x.toNat / 255) ∧
  (∀ x : Byte, ∀ k ≤ 63, k ≤ (scale6 x).toNat ↔ ceilDiv (255 * k) 63 ≤ x.toNat) ∧
  (∀ x : Byte, scale6 x = 63#6 ↔ x = 255#8) ∧
  (∀ x : Byte, (scale6 x).extractLsb' 3 3 = 7#3 ↔ 227 ≤ x.toNat) ∧
  (List.range 64).map (fun k => ceilDiv (255 * k) 63) =
    [0, 5, 9, 13, 17, 21, 25, 29, 33, 37, 41, 45, 49, 53, 57, 61, 65, 69, 73, 77, 81, 85, 90, 94, 98, 102, 106, 110,
      114, 118, 122, 126, 130, 134, 138, 142, 146, 150, 154, 158, 162, 166, 170, 175, 179, 183, 187, 191, 195, 199, 203,
      207, 211, 215, 219, 223, 227, 231, 235, 239, 243, 247, 251, 255]

/-- R195: scaling is neither truncation nor rounding to the nearest integer nor full scale below 255; the truncating
shortcut is wrong for 127 and 126 of the 256 inputs. -/
def Obligations.ScalingIsNotTruncation : Prop :=
  ((List.range 256).filter fun x => (scale5 (BitVec.ofNat 8 x)).toNat != x / 8).length = 127 ∧
  ((List.range 256).filter fun x => (scale6 (BitVec.ofNat 8 x)).toNat != x / 4).length = 126 ∧
  scale5 8#8 = 0#5 ∧ scale5 254#8 = 30#5 ∧ (scale5 254#8).toNat ≠ (2 * (31 * 254) + 255) / (2 * 255) ∧
  ∀ x : Byte, x ≠ 255#8 → (scale5 x).toNat < 31 ∧ (scale6 x).toNat < 63

/-- R83, R84: green in bits 15:11, red in 10:5, blue in 4:0; the fields never overlap and can be read back; every 16-bit
value is the packed value of some colour. -/
def Obligations.PackPlacesTheFieldsWithoutOverlap : Prop :=
  (∀ (g5 : BitVec 5) (r6 : BitVec 6) (b5 : BitVec 5),
    (pack g5 r6 b5).toNat = 2048 * g5.toNat + 32 * r6.toNat + b5.toNat ∧
    (pack g5 r6 b5).extractLsb' 11 5 = g5 ∧ (pack g5 r6 b5).extractLsb' 5 6 = r6 ∧
    (pack g5 r6 b5).extractLsb' 0 5 = b5) ∧
  ∀ p : Packed, ∃ r g b : Byte, packedOf r g b = p

/-- R85, R86: the high byte is `(packed >> 8) mod 255`, 0 when the top byte is 255 and never `0xFF`; the low byte is the
low eight bits, and takes every value. -/
def Obligations.HighByteIsTakenModulo255 : Prop :=
  (∀ p : Packed,
    (hiByte p).toNat = p.toNat / 256 % 255 ∧
    (hiByte p).toNat = (if p.toNat / 256 = 255 then 0 else p.toNat / 256) ∧
    (hiByte p).toNat ≤ 254 ∧ (loByte p).toNat = p.toNat % 256) ∧
  ∀ v : Byte, ∃ p : Packed, loByte p = v

/-- R87, R88: the pair of a sample, by the formulas of the rules. -/
def Obligations.QuantizerComputesThePair : Prop :=
  ∀ r g b a : Byte,
    let packed := 2048 * (31 * g.toNat / 255) + 32 * (63 * r.toNat / 255) + 31 * b.toNat / 255
    quantizeRgb565 r g b a =
      if a.toNat = 0 then (0xFF#8, 0xFE#8)
      else (BitVec.ofNat 8 (packed / 256 % 255), BitVec.ofNat 8 (packed % 256))

/-- R89: the sentinel is emitted for a transparent sample and for no other, which is the one whose mask bit
is 0; the opaque pairs are all those with a high
byte of at most 254; the packed value `0xFFFE` is reached, and emitted as `00 FE`. -/
def Obligations.SentinelIsNeverAnOpaquePair : Prop :=
  (∀ r g b a : Byte,
    (quantizeRgb565 r g b a = (0xFF#8, 0xFE#8) ↔ a = 0) ∧ (maskBit a = false ↔ a = 0)) ∧
  (∀ hi lo : Byte, (∃ r g b a : Byte, a ≠ 0 ∧ quantizeRgb565 r g b a = (hi, lo)) ↔ hi.toNat ≤ 254) ∧
  ∀ b a : Byte, a ≠ 0 → 247 ≤ b.toNat → b.toNat ≤ 254 →
    packedOf 255 255 b = 0xFFFE#16 ∧ quantizeRgb565 255 255 b a = (0x00#8, 0xFE#8)

/-- R90: the top byte of `packed` is 255 exactly when `g = 255` and `r >= 227`; those samples and the ones with `g <= 8`
and `r <= 32` share the high byte 0, so the pair does not determine `packed`. -/
def Obligations.HighByteWrapsExactlyForBrightYellow : Prop :=
  (∀ r g b : Byte, (packedOf r g b).toNat / 256 = 255 ↔ g.toNat = 255 ∧ 227 ≤ r.toNat) ∧
  (∀ r g b a : Byte, a ≠ 0 →
    ((quantizeRgb565 r g b a).1 = 0#8 ↔
      (g.toNat = 255 ∧ 227 ≤ r.toNat) ∨ (g.toNat ≤ 8 ∧ r.toNat ≤ 32))) ∧
  (packedOf 255 255 255 ≠ packedOf 29 0 255 ∧
    quantizeRgb565 255 255 255 255 = (0x00#8, 0xFF#8) ∧ quantizeRgb565 29 0 255 255 = (0x00#8, 0xFF#8)) ∧
  quantizeRgb565 227 255 0 255 = (0x00#8, 0x00#8) ∧ quantizeRgb565 0 0 0 255 = (0x00#8, 0x00#8)

/-- R92: for `a != 0` the pair depends on the colour only. -/
def Obligations.NonzeroAlphaDoesNotTouchTheColour : Prop :=
  ∀ r g b a : Byte, 1 ≤ a.toNat → quantizeRgb565 r g b a = quantizeRgb565 r g b 255

/-- R93: each scaled channel and the packed value are non-decreasing in the channels; the emitted pair is not. -/
def Obligations.ScalingIsMonotone : Prop :=
  (∀ x y : Byte, x.toNat ≤ y.toNat →
    (scale5 x).toNat ≤ (scale5 y).toNat ∧ (scale6 x).toNat ≤ (scale6 y).toNat) ∧
  (∀ r g b r' g' b' : Byte, r.toNat ≤ r'.toNat → g.toNat ≤ g'.toNat → b.toNat ≤ b'.toNat →
    (packedOf r g b).toNat ≤ (packedOf r' g' b').toNat) ∧
  (quantizeRgb565 226 255 0 255).1 = 0xFE#8 ∧ (quantizeRgb565 227 255 0 255).1 = 0x00#8

/-- R95: a transparent pixel reads back as such; an opaque one as its three fields, exactly when `hi != 0` and up to the
two possibilities of R90 when `hi = 0`; a pair `FF xx` other than the sentinel never occurs. -/
def Obligations.PairReadsBackItsFields : Prop :=
  ∀ r g b a : Byte,
    let pair := quantizeRgb565 r g b a
    let reading := readPair pair.1 pair.2
    (a = 0 → reading = .transparent) ∧
    (a ≠ 0 → reading.admits (scale5 g) (scale6 r) (scale5 b) = true ∧
      (pair.1 ≠ 0#8 → reading = .colour (scale5 g) (scale6 r) (scale5 b))) ∧
    (pair.1 = 0xFF#8 → pair.2 = 0xFE#8)

/-! ### The commands: results and frames -/

/-- R110, R112, R140: what `PIX` does, in every state and for every operand. The bytes are those of R88; the mask bit
is shifted in; the eighth one emits a MASK byte. -/
def Obligations.PixEncodesOnePixel : Prop :=
  ∀ (r g b a : Byte) (s : State),
    let packed := 2048 * (31 * g.toNat / 255) + 32 * (63 * r.toNat / 255) + 31 * b.toNat / 255
    let hi := if a.toNat = 0 then 0xFF else packed / 256 % 255
    let lo := if a.toNat = 0 then 0xFE else packed % 256
    let bits := (2 * s.acc.toNat + if a.toNat = 0 then 0 else 1) % 256
    exec (.pix r g b a) s = .next
      { s with
        pixOut := s.pixOut ++ [BitVec.ofNat 8 hi, BitVec.ofNat 8 lo]
        maskOut := if s.cnt.toNat = 7 then s.maskOut ++ [BitVec.ofNat 8 bits] else s.maskOut
        acc := if s.cnt.toNat = 7 then 0#8 else BitVec.ofNat 8 bits
        cnt := if s.cnt.toNat = 7 then 0#3 else BitVec.ofNat 3 (s.cnt.toNat + 1) }

/-- R116, R119, R141: what `END` does, in every state: the pending mask bits leave on top of a zero-padded byte, none
when `CNT = 0`; the two buffers move into `FRAMES`; no PIX byte is emitted. -/
def Obligations.EndClosesTheFrame : Prop :=
  ∀ s : State,
    let lastByte := s.acc.toNat * 2 ^ (8 - s.cnt.toNat) % 256
    exec .endFrame s = .next
      { s with
        acc := 0#8, cnt := 0#3, pixOut := [], maskOut := []
        frames := s.frames ++
          [{ pix := s.pixOut
             mask := if s.cnt.toNat = 0 then s.maskOut else s.maskOut ++ [BitVec.ofNat 8 lastByte] }] }

/-- R12, R48, R148: the frame of `PIX`. It stores at PIX offsets `len` and `len + 1`, `len` the stream's length, and, only
when `CNT = 7`, at the MASK offset equal to that stream's length; every other offset reads as before; completed frames,
DONE tokens and the inputs to come are unchanged. -/
def Obligations.PixFrame : Prop :=
  ∀ (r g b a : Byte) (s : State), ∃ t, exec (.pix r g b a) s = .next t ∧
    (∀ o, o ≠ s.pixOut.length → o ≠ s.pixOut.length + 1 → t.pixByte o = s.pixByte o) ∧
    (∀ o, ¬(s.cnt.toNat = 7 ∧ o = s.maskOut.length) → t.maskByte o = s.maskByte o) ∧
    t.pixOut.length = s.pixOut.length + 2 ∧
    t.maskOut.length = (if s.cnt.toNat = 7 then s.maskOut.length + 1 else s.maskOut.length) ∧
    t.frames = s.frames ∧ t.doneStream = s.doneStream ∧ t.cmd = s.cmd

/-- R51, R141: the frame of `END`. Earlier frames and the inputs to come are unchanged; the new frame's pixel buffer is
what PIX carried; its mask buffer reads as MASK did at every offset but the one equal to the stream's length, which is
stored to only when `CNT` was not 0; exactly one DONE token is appended. -/
def Obligations.EndFrameCondition : Prop :=
  ∀ s : State, ∃ t f, exec .endFrame s = .next t ∧ t.frames = s.frames ++ [f] ∧ f.pix = s.pixOut ∧
    (∀ o, ¬(s.cnt.toNat ≠ 0 ∧ o = s.maskOut.length) → f.mask[o]? = s.maskByte o) ∧
    f.mask.length = (if s.cnt.toNat = 0 then s.maskOut.length else s.maskOut.length + 1) ∧
    t.pixLog = s.pixLog ∧ t.doneStream = s.doneStream ++ [.token] ∧ t.cmd = s.cmd

/-- R35: the state after `END` equals the reset state in the registers and the histories in progress. -/
def Obligations.EndRestoresTheResetRegisters : Prop :=
  ∀ s : State, ∃ t, exec .endFrame s = .next t ∧
    t.acc = State.reset.acc ∧ t.cnt = State.reset.cnt ∧ t.pixOut = State.reset.pixOut ∧
    t.maskOut = State.reset.maskOut ∧ ∃ f, t.frames = s.frames ++ [f]

/-- R145: `END` with no `PIX` before it yields two empty buffers and one DONE token. -/
def Obligations.EmptyFrameIsLegal : Prop :=
  ∀ s : State, AtFrameStart s → ∃ t, exec .endFrame s = .next t ∧ AtFrameStart t ∧
    t.frames = s.frames ++ [{ pix := [], mask := [] }] ∧ t.doneStream = s.doneStream ++ [.token]

/-- R21: the two bytes a `PIX` emits depend on its own operands and on nothing in the state. -/
def Obligations.PixBytesDependOnTheSampleOnly : Prop :=
  ∀ (r g b a : Byte) (s s' t t' : State),
    exec (.pix r g b a) s = .next t → exec (.pix r g b a) s' = .next t' →
      t.pixOut.drop s.pixOut.length = t'.pixOut.drop s'.pixOut.length ∧
      (t.pixOut.drop s.pixOut.length).length = 2

/-- R110, R140: the MASK half of a `PIX` reads the alpha, `ACC` and `CNT` only: two pixels with equal alpha, in states
that agree in `ACC`, `CNT` and MASK, leave the same there, whatever the colours and the PIX stream. -/
def Obligations.MaskHalfDoesNotSeeTheColour : Prop :=
  ∀ (r g b r' g' b' a : Byte) (s s' t t' : State),
    s.acc = s'.acc → s.cnt = s'.cnt → s.maskOut = s'.maskOut →
    exec (.pix r g b a) s = .next t → exec (.pix r' g' b' a) s' = .next t' →
      t.acc = t'.acc ∧ t.cnt = t'.cnt ∧ t.maskOut = t'.maskOut

/-- R32: only `PIX` writes the PIX stream, only `PIX` and `END` write the MASK stream, only `END` writes DONE: a step
that changes a stream and is no reset is one of those commands. -/
def Obligations.StreamsAreWrittenByTheirCommandsOnly : Prop :=
  ∀ (s t : State) (e : Input) (rest : List Input),
    s.cmd = e :: rest → e ≠ .reset → (∀ w, e ≠ .resetOver w) → step s = .next t →
      (t.pixLog ≠ s.pixLog → ∃ w r g b a, e = .command w ∧ decode w = .pix r g b a) ∧
      (t.maskLog ≠ s.maskLog → ∃ w, e = .command w) ∧
      (t.doneStream ≠ s.doneStream → ∃ w, e = .command w ∧ decode w = .endFrame)

/-- R49: the streams are append-only: over a step that is no reset, every offset already written keeps its byte, on both
streams and in every completed frame. And they are write-only: in two states that agree in `ACC` and `CNT`, whatever has
been emitted before, a command appends the same bytes and tokens and leaves the same `ACC` and `CNT`. -/
def Obligations.StreamsAreAppendOnly : Prop :=
  (∀ s t : State, s.cmd.head? ≠ some .reset → (∀ w, s.cmd.head? ≠ some (.resetOver w)) → step s = .next t →
    s.pixLog <+: t.pixLog ∧ s.maskLog <+: t.maskLog ∧ s.frames <+: t.frames) ∧
  ∀ (i : Instr) (s s' : State), s.acc = s'.acc → s.cnt = s'.cnt →
    ∃ t t' newPix newMask newDone, exec i s = .next t ∧ exec i s' = .next t' ∧ t.acc = t'.acc ∧ t.cnt = t'.cnt ∧
      t.pixLog = s.pixLog ++ newPix ∧ t'.pixLog = s'.pixLog ++ newPix ∧
      t.maskLog = s.maskLog ++ newMask ∧ t'.maskLog = s'.maskLog ++ newMask ∧
      t.doneStream = s.doneStream ++ newDone ∧ t'.doneStream = s'.doneStream ++ newDone

/-- R51, R55, R56: a legal observation carries each stream's bytes in order and one DONE token per frame; the bytes a
`PIX` emits may reach the sinks in any interleaving that keeps each stream's order; the DONE token of an `END` comes after
all of its frame's bytes and before any byte of the next. A sequence of transfers is legal exactly when its `k`-th piece
cut at DONE delivers the `k`-th frame's two buffers, in whatever interleaving, and the rest the frame in progress; so a
PIX byte and a MASK byte side by side may change places anywhere. What a legal observation is, and that it is related to
states at the ends of commands, is the model's reading (log entries 5 and 17). -/
def Obligations.SinksSeeAnyInterleavingCutAtDone : Prop :=
  State.reset.admits [] = true ∧
  (∀ (s : State) (obs : List Delivered), s.admits obs = true →
    pixOf obs = s.pixLog ∧ maskOf obs = s.maskLog ∧ obs.count .done = s.doneStream.length) ∧
  (∀ (r g b a : Byte) (s t : State) (obs new : List Delivered),
    s.admits obs = true → exec (.pix r g b a) s = .next t → .done ∉ new →
    s.pixOut ++ pixOf new = t.pixOut → s.maskOut ++ maskOf new = t.maskOut → t.admits (obs ++ new) = true) ∧
  (∀ (s t : State) (f : Frame) (obs new : List Delivered),
    s.admits obs = true → exec .endFrame s = .next t → t.frames = s.frames ++ [f] → .done ∉ new →
    (t.admits (obs ++ new ++ [.done]) = true ↔ pixOf new = [] ∧ s.maskOut ++ maskOf new = f.mask)) ∧
  (∀ (s : State) (pieces : List (List Delivered)) (last : List Delivered),
    (∀ piece ∈ pieces, Delivered.done ∉ piece) → Delivered.done ∉ last →
    (s.admits (pieces.flatMap (fun piece => piece ++ [.done]) ++ last) = true ↔
      pieces.length = s.frames.length ∧
      (∀ (k : Nat) (piece : List Delivered) (f : Frame), pieces[k]? = some piece → s.frames[k]? = some f →
        pixOf piece = f.pix ∧ maskOf piece = f.mask) ∧
      pixOf last = s.pixOut ∧ maskOf last = s.maskOut)) ∧
  ∀ (s : State) (before after : List Delivered) (v w : Byte),
    s.admits (before ++ [.pix v, .mask w] ++ after) = s.admits (before ++ [.mask w, .pix v] ++ after)

/-! ### The mask encoder over bit sequences -/

/-- R24: after `k` bits the source's accumulator is `ACC << 1`; it needs 9 bits after the eighth, at most `0x1FE`; the
closing right shift gives the eight bits' value. -/
def Obligations.LiteralAccumulatorIsAccShiftedLeft : Prop :=
  (∀ bits : List Bool, bits.length ≤ 8 →
    (literalAcc bits).toNat = 2 * bitsValue bits ∧ (literalAcc bits).toNat ≤ 0x1FE ∧
    (packGroup bits).toNat = bitsValue bits) ∧
  ∀ (s : State) (bits : List Bool), s.acc = 0#8 → s.cnt = 0#3 → bits.length ≤ 7 →
    (bits.foldl State.shiftIn s).cnt.toNat = bits.length ∧
    (literalAcc bits).toNat = 2 * (bits.foldl State.shiftIn s).acc.toNat

/-- R115: `byte[7 - j] = m_j`: the first bit of a group is the most significant. -/
def Obligations.GroupIsPackedMostSignificantFirst : Prop :=
  ∀ m0 m1 m2 m3 m4 m5 m6 m7 : Bool,
    let group := [m0, m1, m2, m3, m4, m5, m6, m7]
    (packGroup group).toNat = m0.toNat * 128 + m1.toNat * 64 + m2.toNat * 32 + m3.toNat * 16 + m4.toNat * 8 +
      m5.toNat * 4 + m6.toNat * 2 + m7.toNat ∧
    ∀ j < 8, (packGroup group).getLsbD (7 - j) = group.getD j false

/-- R120: the bytes `shift_in` and `flush` emit over a frame are exactly `pack_alpha_mask` of its bits, from every state
at a group boundary. -/
def Obligations.EncoderEmitsPackAlphaMask : Prop :=
  ∀ (s : State) (bits : List Bool), s.acc = 0#8 → s.cnt = 0#3 →
    (bits.foldl State.shiftIn s).flush .deficit = { s with maskOut := s.maskOut ++ packAlphaMask bits }

/-- R114, R116, R117: in both pad modes the bit-serial encoder emits what the source's literal loop gives over the padded
sequence. For `REMAINDER`, which is not this hardware, the reading of a short group is inferred (log entry 8). -/
def Obligations.EncoderAgreesWithTheLiteralLoop : Prop :=
  ∀ (mode : PadMode) (s : State) (bits : List Bool), s.acc = 0#8 → s.cnt = 0#3 →
    (bits.foldl State.shiftIn s).flush mode = { s with maskOut := s.maskOut ++ packLiteral mode bits }

/-- R116: `flush` with deficit padding: one byte with the `CNT` pending bits on top and zero bits below, none when
`CNT = 0`; it equals shifting in a 0 bit `8 - CNT` times. -/
def Obligations.FlushPadsWithZeroBits : Prop :=
  ∀ s : State,
    (s.cnt = 0#3 → s.flush .deficit = { s with acc := 0#8, cnt := 0#3 }) ∧
    (s.cnt ≠ 0#3 →
      s.flush .deficit = { s with
        acc := 0#8, cnt := 0#3
        maskOut := s.maskOut ++ [BitVec.ofNat 8 (s.acc.toNat * 2 ^ (8 - s.cnt.toNat))] } ∧
      s.flush .deficit = (List.replicate (8 - s.cnt.toNat) false).foldl State.shiftIn s)

/-- R47: under `REMAINDER` padding the length is `ceil((N + (N mod 8)) / 8)`. -/
def Obligations.RemainderPaddingLength : Prop :=
  ∀ bits : List Bool,
    (packLiteral .remainder bits).length = (bits.length + bits.length % 8 + 7) / 8

/-- R46, R124: a pad bit is indistinguishable from a transparent pixel: appending the pad bits as real bits leaves the
buffer as it is; so nine opaque pixels and those with seven transparent ones give the same buffer. -/
def Obligations.PaddingIsIndistinguishableFromTransparency : Prop :=
  (∀ bits : List Bool,
    packAlphaMask (bits ++ List.replicate ((8 - bits.length % 8) % 8) false) = packAlphaMask bits) ∧
  packAlphaMask (List.replicate 9 true) = [0xFF#8, 0x80#8] ∧
  packAlphaMask (List.replicate 9 true ++ List.replicate 7 false) = [0xFF#8, 0x80#8]

/-! ### Frames -/

/-- R113, R188: after `n` pixels of a frame, `2 n` PIX bytes and `floor(n / 8)` MASK bytes are out, never a partial one,
and the last `n mod 8` mask bits sit in `ACC`, right-aligned (R22, R23). -/
def Obligations.UnfinishedFrameHoldsItsLastBits : Prop :=
  ∀ (s : State) (samples : List Sample), AtFrameStart s →
    let bits := samples.map fun p => decide (p.a ≠ 0)
    execAll (samples.map Sample.toInstr) s = .next
      { s with
        pixOut := pixelBuffer samples
        maskOut := packAlphaMask (bits.take (8 * (samples.length / 8)))
        cnt := BitVec.ofNat 3 (samples.length % 8)
        acc := BitVec.ofNat 8 (bitsValue (bits.drop (8 * (samples.length / 8)))) } ∧
    (pixelBuffer samples).length = 2 * samples.length ∧
    (packAlphaMask (bits.take (8 * (samples.length / 8)))).length = samples.length / 8

/-- R142: from a frame boundary, `PIX s_0; ...; PIX s_(N-1); END` appends `encode_frame(s)`, of lengths `2 N` and
`ceil(N / 8)`, to `FRAMES` and leaves everything else as it was. -/
def Obligations.FrameCommandsEncodeTheFrame : Prop :=
  ∀ (s : State) (samples : List Sample), AtFrameStart s →
    execAll (frameInstrs samples) s = .next { s with frames := s.frames ++ [encodeFrame samples] } ∧
    (encodeFrame samples).pix = (samples.map fun p =>
      [(quantizeRgb565 p.r p.g p.b p.a).1, (quantizeRgb565 p.r p.g p.b p.a).2]).flatten ∧
    (encodeFrame samples).mask = packAlphaMask (samples.map fun p => decide (p.a ≠ 0)) ∧
    (encodeFrame samples).pix.length = 2 * samples.length ∧
    (encodeFrame samples).mask.length = (samples.length + 7) / 8

/-- R144: frames sent one after the other on CMD are encoded independently of each other, by the machine's own steps. -/
def Obligations.FramesAreIndependent : Prop :=
  ∀ (s : State) (fs : List (List Sample)) (rest : List Input), AtFrameStart s →
    stepMany (fs.flatMap frameInputs).length { s with cmd := fs.flatMap frameInputs ++ rest } =
      .next { s with frames := s.frames ++ fs.map encodeFrame, cmd := rest }

/-- R146: a frame that is never ended completes nothing: what was emitted stays emitted, no DONE token appears, `FRAMES`
does not grow, and the block then waits for ever. -/
def Obligations.UnendedFrameIsNotComplete : Prop :=
  ∀ (s : State) (samples : List Sample), s.cmd = [] →
    ∃ t, execAll (samples.map Sample.toInstr) s = .next t ∧ s.pixOut <+: t.pixOut ∧ s.maskOut <+: t.maskOut ∧
      t.frames = s.frames ∧ t.doneStream = s.doneStream ∧ ∀ k, stepMany k t = .next t

/-- R41, R43: the frame's pixel buffer holds `hi_i` at offset `2 i` and `lo_i` at offset `2 i + 1`, and nothing else. -/
def Obligations.PixelBufferLayout : Prop :=
  ∀ (s : State) (samples : List Sample), AtFrameStart s → ∃ f, FrameYields s samples f ∧
    f.pix.length = 2 * samples.length ∧
    ∀ (i : Nat) (p : Sample), samples[i]? = some p →
      f.pix[2 * i]? = some (quantizeRgb565 p.r p.g p.b p.a).1 ∧
      f.pix[2 * i + 1]? = some (quantizeRgb565 p.r p.g p.b p.a).2

/-- R44, R45, R121: the frame's mask buffer has `ceil(N / 8)` bytes; the mask bit of pixel `i` is bit `7 - (i mod 8)` of
byte `floor(i / 8)`; the bits after the last pixel's are 0. -/
def Obligations.MaskBufferLayout : Prop :=
  ∀ (s : State) (samples : List Sample), AtFrameStart s → ∃ f, FrameYields s samples f ∧
    f.mask.length = (samples.length + 7) / 8 ∧
    ∀ (q j : Nat) (byte : Byte), f.mask[q]? = some byte → j < 8 →
      byte.getLsbD (7 - j) = match samples[8 * q + j]? with
        | some p => decide (p.a ≠ 0)
        | none => false

/-- R123: for every pixel of a frame, its mask bit is 0 iff its alpha is 0 iff its pair is the sentinel. -/
def Obligations.MaskAndSentinelAgree : Prop :=
  ∀ (s : State) (samples : List Sample), AtFrameStart s → ∃ f, FrameYields s samples f ∧
    ∀ (i : Nat) (p : Sample), samples[i]? = some p →
      (maskBitOf f.mask i = some false ↔ p.a = 0) ∧ (maskBitOf f.mask i = some true ↔ p.a ≠ 0) ∧
      (p.a = 0 ↔ f.pix[2 * i]? = some 0xFF#8 ∧ f.pix[2 * i + 1]? = some 0xFE#8)

/-- R193: the mask is packed over the whole frame; pixel `(x, y)` of an image of width `w` is at bit
`7 - ((y * w + x) mod 8)` of byte `floor((y * w + x) / 8)`. -/
def Obligations.MaskRowsAreNotByteAligned : Prop :=
  ∀ (s : State) (samples : List Sample) (w h : Nat), AtFrameStart s → samples.length = w * h →
    ∃ f, FrameYields s samples f ∧
      ∀ x y, x < w → y < h → ∃ p byte, samples[y * w + x]? = some p ∧ f.mask[(y * w + x) / 8]? = some byte ∧
        byte.getLsbD (7 - (y * w + x) % 8) = decide (p.a ≠ 0) ∧ maskBitAt f.mask w x y = some (decide (p.a ≠ 0))

/-- R57, R170: splitting an image at a multiple of 8 pixels is sound: the parts' buffers, one after the other, are the
whole image's. -/
def Obligations.SplittingAtMultiplesOfEightIsSound : Prop :=
  ∀ left right : List Sample, left.length % 8 = 0 →
    (encodeFrame (left ++ right)).pix = (encodeFrame left).pix ++ (encodeFrame right).pix ∧
    (encodeFrame (left ++ right)).mask = (encodeFrame left).mask ++ (encodeFrame right).mask

/-! ### Invariants -/

/-- The invariant holds right after reset. -/
def Obligations.InvariantHoldsAtReset : Prop := Consistent State.reset

/-- R22, R23, R43, R45, R123, R188: every step keeps the block consistent: the pairs already on PIX tell exactly the mask
bits that are in the MASK bytes, in `ACC` and in `CNT`, and every completed frame's two buffers agree. -/
def Obligations.EveryStepKeepsTheInvariant : Prop :=
  ∀ s t : State, Consistent s → step s = .next t → Consistent t

/-- R22: `ACC < 2^CNT` always, so `ACC = 0` whenever `CNT = 0` and `ACC[7] = 0`: every step keeps it, and it holds at
reset. -/
def Obligations.AccumulatorStaysBelowItsCount : Prop :=
  State.reset.acc.toNat < 2 ^ State.reset.cnt.toNat ∧
  (∀ s t : State, s.acc.toNat < 2 ^ s.cnt.toNat → step s = .next t → t.acc.toNat < 2 ^ t.cnt.toNat) ∧
  ∀ s : State, s.acc.toNat < 2 ^ s.cnt.toNat → (s.cnt = 0#3 → s.acc = 0#8) ∧ s.acc.getLsbD 7 = false

/-- R23, R43, R113: from every state in which `CNT` is the number of PIX pairs modulo 8 and MASK holds one byte per eight
of them, every step leads to such a state. -/
def Obligations.CountsFollowThePixels : Prop :=
  ∀ s t : State,
    (∃ n, s.pixOut.length = 2 * n ∧ s.cnt.toNat = n % 8 ∧ s.maskOut.length = n / 8) → step s = .next t →
      ∃ n, t.pixOut.length = 2 * n ∧ t.cnt.toNat = n % 8 ∧ t.maskOut.length = n / 8
end

