-- ==== Sys2Proof/Laws/Decode.lean ====
section
/-!
SUPPORT. The command word as a number: its opcode bit, its fields, and the word of an encoded command.
-/

namespace Sys2Proof

/-- Masking with bit 32 leaves that bit. -/
theorem and_opMask (w : CmdWord) : w &&& 0x100000000#33 = if w.getLsbD 32 then 0x100000000#33 else 0#33 := by
  have hbit : ∀ i < 33, (0x100000000#33).getLsbD i = decide (i = 32) := by decide
  apply BitVec.eq_of_getLsbD_eq
  intro i hi
  rw [BitVec.getLsbD_and, hbit i hi]
  by_cases h32 : i = 32
  · subst h32; cases w.getLsbD 32 <;> decide
  · split
    · rw [hbit i hi]; simp [h32]
    · simp [h32]

/-- The row of `END` covers the words with `op = 1` (R62). -/
theorem rowCovers_endRow (w : CmdWord) : rowCovers endRow w = w.getLsbD 32 := by
  simp only [rowCovers, endRow, and_opMask]
  split <;> simp_all

/-- The row of `PIX` covers the words with `op = 0` (R62). -/
theorem rowCovers_pixRow (w : CmdWord) : rowCovers pixRow w = !w.getLsbD 32 := by
  simp only [rowCovers, pixRow, and_opMask]
  split <;> simp_all

/-- `op = 1` in numbers. -/
theorem opBit_eq (w : CmdWord) : w.getLsbD 32 = decide (2 ^ 32 ≤ w.toNat) := by
  have hw := w.isLt
  rw [BitVec.getLsbD, Nat.testBit_eq_decide_div_mod_eq]
  congr 1
  apply propext
  omega

/-- The decoder by its opcode bit alone. -/
theorem decode_eq_ite (w : CmdWord) :
    decode w = if w.getLsbD 32 then .endFrame
      else .pix (byteField 24 w) (byteField 16 w) (byteField 8 w) (byteField 0 w) := by
  rw [decode, rowCovers_endRow]

/-- A field as a number (R11). -/
theorem byteField_toNat (lo : Nat) (w : CmdWord) : (byteField lo w).toNat = w.toNat / 2 ^ lo % 256 := by
  simp [byteField, BitVec.extractLsb'_toNat, Nat.shiftRight_eq_div_pow]

/-- The word of a `PIX` command as a number: the fields lie in disjoint places (R60, R70). -/
theorem encode_pix_toNat (r g b a : Byte) :
    (encode (.pix r g b a)).toNat = r.toNat * 2 ^ 24 + g.toNat * 2 ^ 16 + b.toNat * 2 ^ 8 + a.toNat := by
  have hr := r.isLt
  have hg := g.isLt
  have hb := b.isLt
  have ha := a.isLt
  simp only [encode, BitVec.toNat_or, BitVec.toNat_shiftLeft, BitVec.toNat_setWidth, Nat.shiftLeft_eq]
  rw [Nat.mod_eq_of_lt (a := r.toNat) (by omega), Nat.mod_eq_of_lt (a := g.toNat) (by omega),
    Nat.mod_eq_of_lt (a := b.toNat) (by omega), Nat.mod_eq_of_lt (a := a.toNat) (by omega),
    Nat.mod_eq_of_lt (a := r.toNat * _) (by omega), Nat.mod_eq_of_lt (a := g.toNat * _) (by omega),
    Nat.mod_eq_of_lt (a := b.toNat * _) (by omega), Nat.or_assoc, Nat.or_assoc, Nat.mul_comm b.toNat,
    ← Nat.two_pow_add_eq_or_of_lt (i := 8) (by omega), Nat.mul_comm g.toNat,
    ← Nat.two_pow_add_eq_or_of_lt (i := 16) (by omega), Nat.mul_comm r.toNat,
    ← Nat.two_pow_add_eq_or_of_lt (i := 24) (by omega)]
  omega

end Sys2Proof
end

