-- ==== Sys2Proof/Laws/Delivery.lean ====
section
/-!
SUPPORT. What a sequence of transfers delivers, and how the cut at the DONE tokens goes through an append (R51, R55).
-/

namespace Sys2Proof.Machine

@[simp] theorem pixOf_append (p q : List Delivered) : pixOf (p ++ q) = pixOf p ++ pixOf q := by simp [pixOf]

@[simp] theorem maskOf_append (p q : List Delivered) : maskOf (p ++ q) = maskOf p ++ maskOf q := by simp [maskOf]

@[simp] theorem pixOf_nil : pixOf [] = [] := rfl
@[simp] theorem maskOf_nil : maskOf [] = [] := rfl
@[simp] theorem pixOf_pix (v : Byte) (q : List Delivered) : pixOf (.pix v :: q) = v :: pixOf q := rfl
@[simp] theorem pixOf_mask (v : Byte) (q : List Delivered) : pixOf (.mask v :: q) = pixOf q := rfl
@[simp] theorem pixOf_done (q : List Delivered) : pixOf (.done :: q) = pixOf q := rfl
@[simp] theorem maskOf_pix (v : Byte) (q : List Delivered) : maskOf (.pix v :: q) = maskOf q := rfl
@[simp] theorem maskOf_mask (v : Byte) (q : List Delivered) : maskOf (.mask v :: q) = v :: maskOf q := rfl
@[simp] theorem maskOf_done (q : List Delivered) : maskOf (.done :: q) = maskOf q := rfl

/-- Transfers without a DONE token are one piece, not yet completed. -/
theorem cutAtDone_of_no_done {p : List Delivered} (h : Delivered.done ∉ p) : cutAtDone p = ([], p) := by
  induction p with
  | nil => rfl
  | cons d p ih =>
    rw [List.mem_cons, not_or] at h
    cases d with
    | done => exact absurd rfl h.1
    | pix v => simp [cutAtDone, ih h.2]
    | mask v => simp [cutAtDone, ih h.2]

/-- A first piece up to its DONE token is cut off whole (R51). -/
theorem cutAtDone_piece {p : List Delivered} (q : List Delivered) (h : Delivered.done ∉ p) :
    cutAtDone (p ++ .done :: q) = (p :: (cutAtDone q).1, (cutAtDone q).2) := by
  induction p with
  | nil => rfl
  | cons d p ih =>
    rw [List.mem_cons, not_or] at h
    cases d with
    | done => exact absurd rfl h.1
    | pix v => simp [cutAtDone, ih h.2]
    | mask v => simp [cutAtDone, ih h.2]

/-- What `admits` says, stream by stream (R51, R55). -/
theorem State.admits_iff (s : State) (obs : List Delivered) :
    s.admits obs = true ↔ (cutAtDone obs).1.map deliveredFrame = s.frames ∧
      pixOf (cutAtDone obs).2 = s.pixOut ∧ maskOf (cutAtDone obs).2 = s.maskOut := by
  simp [State.admits, deliveredFrame]

end Sys2Proof.Machine
end

