-- ==== Sys2Proof/Laws/Mask.lean ====
section
/-!
SUPPORT. Mask bits as numbers, the induction over groups of eight bits, and the packing of a sequence that begins with a
full group.
-/

namespace Sys2Proof

open Machine

/-! ### The number a bit sequence spells (R22) -/

/-- One bit more: shift, then OR (R112). -/
theorem bitsValue_concat (bits : List Bool) (m : Bool) : bitsValue (bits ++ [m]) = 2 * bitsValue bits + m.toNat := by
  rw [bitsValue, List.foldl_append]; rfl

/-- `k` bits spell a number below `2^k` (R22). -/
theorem bitsValue_lt (bits : List Bool) : bitsValue bits < 2 ^ bits.length := by
  induction bits using List.reverseRecOn with
  | nil => decide
  | append_singleton bits m ih =>
    rw [bitsValue_concat, List.length_append, List.length_singleton, pow_succ]
    cases m <;> simp <;> omega

/-- The bits of two sequences, one after the other. -/
theorem bitsValue_append (left right : List Bool) :
    bitsValue (left ++ right) = bitsValue left * 2 ^ right.length + bitsValue right := by
  induction right using List.reverseRecOn with
  | nil => simp [bitsValue]
  | append_singleton right m ih =>
    rw [← List.append_assoc, bitsValue_concat, ih, bitsValue_concat, List.length_append, List.length_singleton, pow_succ]
    ring

/-! ### Groups of eight (R114) -/

/-- Induction over a bit sequence: fewer than eight bits, or a full group before the rest. -/
theorem bits_induction {P : List Bool → Prop} (short : ∀ bits, bits.length ≤ 7 → P bits)
    (group : ∀ g bits, g.length = 8 → P bits → P (g ++ bits)) : ∀ bits, P bits := by
  intro bits
  induction hn : bits.length using Nat.strong_induction_on generalizing bits with
  | _ n ih =>
    by_cases h : bits.length ≤ 7
    · exact short _ h
    · rw [← List.take_append_drop 8 bits]
      exact group _ _ (by simp; omega) (ih (bits.drop 8).length (by simp; omega) _ rfl)

/-- A full group needs no padding of its own (R119). -/
theorem padded_group_append (mode : PadMode) (g bits : List Bool) (h : g.length = 8) :
    padded mode (g ++ bits) = g ++ padded mode bits := by
  have hp : padCount mode (g ++ bits).length = padCount mode bits.length := by
    cases mode <;> simp [padCount, h]
  rw [padded, hp, padded, List.append_assoc]

/-- A full group is packed on its own, before the rest (R114). -/
theorem packLiteral_group_append (mode : PadMode) (g bits : List Bool) (h : g.length = 8) :
    packLiteral mode (g ++ bits) = packGroup g :: packLiteral mode bits := by
  have hlen : ceilDiv (g ++ padded mode bits).length 8 = ceilDiv (padded mode bits).length 8 + 1 := by
    simp [ceilDiv, h]; omega
  rw [packLiteral, padded_group_append mode g bits h, hlen, List.range_succ_eq_map, List.map_cons, List.map_map]
  congr 1
  · simp [groupAt, h]
  · apply List.map_congr_left
    intro q _
    simp only [Function.comp, groupAt]
    rw [show 8 * q.succ = g.length + 8 * q by rw [h]; omega, List.drop_append,
      List.drop_eq_nil_of_le (by omega), List.nil_append, Nat.add_sub_cancel_left]

end Sys2Proof
end

