-- ==== Sys2Proof/Laws/State.lean ====
section
/-!
SUPPORT. One lemma per field per update of the state, so that no proof unfolds a record update.
-/

namespace Sys2Proof.Machine

/-! ### `emit_pix` (R12) -/

@[simp] theorem State.emitPix_acc (s : State) (v : Byte) : (s.emitPix v).acc = s.acc := rfl
@[simp] theorem State.emitPix_cnt (s : State) (v : Byte) : (s.emitPix v).cnt = s.cnt := rfl
@[simp] theorem State.emitPix_pixOut (s : State) (v : Byte) : (s.emitPix v).pixOut = s.pixOut ++ [v] := rfl
@[simp] theorem State.emitPix_maskOut (s : State) (v : Byte) : (s.emitPix v).maskOut = s.maskOut := rfl
@[simp] theorem State.emitPix_frames (s : State) (v : Byte) : (s.emitPix v).frames = s.frames := rfl
@[simp] theorem State.emitPix_cmd (s : State) (v : Byte) : (s.emitPix v).cmd = s.cmd := rfl

/-! ### `emit_mask` (R12) -/

@[simp] theorem State.emitMask_acc (s : State) (v : Byte) : (s.emitMask v).acc = s.acc := rfl
@[simp] theorem State.emitMask_cnt (s : State) (v : Byte) : (s.emitMask v).cnt = s.cnt := rfl
@[simp] theorem State.emitMask_pixOut (s : State) (v : Byte) : (s.emitMask v).pixOut = s.pixOut := rfl
@[simp] theorem State.emitMask_maskOut (s : State) (v : Byte) : (s.emitMask v).maskOut = s.maskOut ++ [v] := rfl
@[simp] theorem State.emitMask_frames (s : State) (v : Byte) : (s.emitMask v).frames = s.frames := rfl
@[simp] theorem State.emitMask_cmd (s : State) (v : Byte) : (s.emitMask v).cmd = s.cmd := rfl

/-! ### Writing `ACC` and `CNT` (R12) -/

@[simp] theorem State.setMaskRegs_acc (s : State) (acc : Byte) (cnt : BitVec 3) : (s.setMaskRegs acc cnt).acc = acc := rfl
@[simp] theorem State.setMaskRegs_cnt (s : State) (acc : Byte) (cnt : BitVec 3) : (s.setMaskRegs acc cnt).cnt = cnt := rfl
@[simp] theorem State.setMaskRegs_pixOut (s : State) (acc : Byte) (cnt : BitVec 3) : (s.setMaskRegs acc cnt).pixOut = s.pixOut := rfl
@[simp] theorem State.setMaskRegs_maskOut (s : State) (acc : Byte) (cnt : BitVec 3) : (s.setMaskRegs acc cnt).maskOut = s.maskOut := rfl
@[simp] theorem State.setMaskRegs_frames (s : State) (acc : Byte) (cnt : BitVec 3) : (s.setMaskRegs acc cnt).frames = s.frames := rfl
@[simp] theorem State.setMaskRegs_cmd (s : State) (acc : Byte) (cnt : BitVec 3) : (s.setMaskRegs acc cnt).cmd = s.cmd := rfl

/-! ### `emit_done` (R51) -/

@[simp] theorem State.emitDone_acc (s : State) : s.emitDone.acc = s.acc := rfl
@[simp] theorem State.emitDone_cnt (s : State) : s.emitDone.cnt = s.cnt := rfl
@[simp] theorem State.emitDone_pixOut (s : State) : s.emitDone.pixOut = [] := rfl
@[simp] theorem State.emitDone_maskOut (s : State) : s.emitDone.maskOut = [] := rfl
@[simp] theorem State.emitDone_frames (s : State) : s.emitDone.frames = s.frames ++ [{ pix := s.pixOut, mask := s.maskOut }] := rfl
@[simp] theorem State.emitDone_cmd (s : State) : s.emitDone.cmd = s.cmd := rfl

/-! ### The reset event (R180) -/

@[simp] theorem State.applyReset_acc (s : State) : s.applyReset.acc = 0#8 := rfl
@[simp] theorem State.applyReset_cnt (s : State) : s.applyReset.cnt = 0#3 := rfl
@[simp] theorem State.applyReset_pixOut (s : State) : s.applyReset.pixOut = [] := rfl
@[simp] theorem State.applyReset_maskOut (s : State) : s.applyReset.maskOut = [] := rfl
@[simp] theorem State.applyReset_frames (s : State) : s.applyReset.frames = [] := rfl
@[simp] theorem State.applyReset_cmd (s : State) : s.applyReset.cmd = s.cmd := rfl

/-! ### The source offering a word (R40) -/

@[simp] theorem State.offer_acc (s : State) (w : CmdWord) : (s.offer w).acc = s.acc := rfl
@[simp] theorem State.offer_cnt (s : State) (w : CmdWord) : (s.offer w).cnt = s.cnt := rfl
@[simp] theorem State.offer_pixOut (s : State) (w : CmdWord) : (s.offer w).pixOut = s.pixOut := rfl
@[simp] theorem State.offer_maskOut (s : State) (w : CmdWord) : (s.offer w).maskOut = s.maskOut := rfl
@[simp] theorem State.offer_frames (s : State) (w : CmdWord) : (s.offer w).frames = s.frames := rfl
@[simp] theorem State.offer_cmd (s : State) (w : CmdWord) : (s.offer w).cmd = .command w :: s.cmd := rfl

/-! ### Waiting (R172) and reset (R34) -/

@[simp] theorem State.wait_eq (s : State) : s.wait = s := rfl

@[simp] theorem State.reset_acc : State.reset.acc = 0#8 := rfl
@[simp] theorem State.reset_cnt : State.reset.cnt = 0#3 := rfl
@[simp] theorem State.reset_pixOut : State.reset.pixOut = [] := rfl
@[simp] theorem State.reset_maskOut : State.reset.maskOut = [] := rfl
@[simp] theorem State.reset_frames : State.reset.frames = [] := rfl
@[simp] theorem State.reset_cmd : State.reset.cmd = [] := rfl

/-- Two states are equal when their six fields are. -/
theorem State.eq_of_fields {s t : State} (hacc : s.acc = t.acc) (hcnt : s.cnt = t.cnt) (hpix : s.pixOut = t.pixOut)
    (hmask : s.maskOut = t.maskOut) (hframes : s.frames = t.frames) (hcmd : s.cmd = t.cmd) : s = t := by
  cases s; cases t; simp_all

end Sys2Proof.Machine
end

