-- ==== Sys2Proof/Laws/Ops.lean ====
section
/-!
SUPPORT. What each shared operation does, said once: reading after an append, shift-in, flush, and the two commands
field by field.
-/

namespace Sys2Proof.Machine

/-! ### Reading after an append (R48, R49) -/

/-- The byte just emitted is read at the stream's old length. -/
theorem pixByte_emitPix_new (s : State) (v : Byte) : (s.emitPix v).pixByte s.pixOut.length = some v := by
  simp [State.pixByte]

/-- Every other offset reads as before. -/
theorem pixByte_emitPix_other (s : State) (v : Byte) {o : Nat} (h : o ≠ s.pixOut.length) :
    (s.emitPix v).pixByte o = s.pixByte o := by
  simp only [State.pixByte, State.emitPix_pixOut, List.getElem?_append]
  split
  · rfl
  · rw [List.getElem?_eq_none (l := [v]) (by simp; omega), List.getElem?_eq_none (by omega)]

/-- The byte just emitted is read at the stream's old length. -/
theorem maskByte_emitMask_new (s : State) (v : Byte) : (s.emitMask v).maskByte s.maskOut.length = some v := by
  simp [State.maskByte]

/-- Every other offset reads as before. -/
theorem maskByte_emitMask_other (s : State) (v : Byte) {o : Nat} (h : o ≠ s.maskOut.length) :
    (s.emitMask v).maskByte o = s.maskByte o := by
  simp only [State.maskByte, State.emitMask_maskOut, List.getElem?_append]
  split
  · rfl
  · rw [List.getElem?_eq_none (l := [v]) (by simp; omega), List.getElem?_eq_none (by omega)]

/-! ### The tests inside a command (R28) -/

@[simp] theorem isTransparent_iff (a : Byte) : isTransparent a = true ↔ a = 0#8 := by simp [isTransparent]

@[simp] theorem groupCompletes_iff (cnt : BitVec 3) : groupCompletes cnt = true ↔ cnt = 7#3 := by
  simp [groupCompletes]

@[simp] theorem groupEmpty_iff (cnt : BitVec 3) : groupEmpty cnt = true ↔ cnt = 0#3 := by simp [groupEmpty]

/-- The mask bit is 1 for every alpha but 0 (R110). -/
theorem maskBit_eq (a : Byte) : maskBit a = decide (a ≠ 0#8) := by
  by_cases h : a = 0#8 <;> simp [maskBit, isTransparent, h]

/-! ### Shift-in and flush (R112, R116) -/

/-- The shifted value as a number: twice `ACC` plus the bit, within eight bits (R112). -/
theorem shiftedIn_toNat (acc : Byte) (m : Bool) :
    (shiftedIn acc m).toNat = (2 * acc.toNat + m.toNat) % 256 := by
  revert acc m; decide +revert

/-- The mask bit that completes a group: its byte is emitted and the registers are cleared (R112, R113). -/
theorem State.shiftIn_completes (s : State) (m : Bool) (h : s.cnt = 7#3) :
    s.shiftIn m = (s.emitMask (shiftedIn s.acc m)).setMaskRegs 0#8 0#3 := by
  simp [State.shiftIn, h]

/-- Any other mask bit stays in `ACC` (R112). -/
theorem State.shiftIn_pending (s : State) (m : Bool) (h : s.cnt ≠ 7#3) :
    s.shiftIn m = s.setMaskRegs (shiftedIn s.acc m) (s.cnt + 1#3) := by
  simp [State.shiftIn, h]

/-- Shift-in touches neither the PIX stream nor the frames nor the inputs (R112, R140). -/
@[simp] theorem State.shiftIn_pixOut (s : State) (m : Bool) : (s.shiftIn m).pixOut = s.pixOut := by
  unfold State.shiftIn; split <;> rfl

@[simp] theorem State.shiftIn_frames (s : State) (m : Bool) : (s.shiftIn m).frames = s.frames := by
  unfold State.shiftIn; split <;> rfl

@[simp] theorem State.shiftIn_cmd (s : State) (m : Bool) : (s.shiftIn m).cmd = s.cmd := by
  unfold State.shiftIn; split <;> rfl

/-- Flush leaves both registers 0, in either mode (R116, R117). -/
@[simp] theorem State.flush_acc (s : State) (mode : PadMode) : (s.flush mode).acc = 0#8 := rfl

@[simp] theorem State.flush_cnt (s : State) (mode : PadMode) : (s.flush mode).cnt = 0#3 := rfl

@[simp] theorem State.flush_pixOut (s : State) (mode : PadMode) : (s.flush mode).pixOut = s.pixOut := by
  cases mode <;> simp only [State.flush, State.setMaskRegs_pixOut, State.flushDeficit, State.flushRemainder] <;>
    split_ifs <;> rfl

@[simp] theorem State.flush_frames (s : State) (mode : PadMode) : (s.flush mode).frames = s.frames := by
  cases mode <;> simp only [State.flush, State.setMaskRegs_frames, State.flushDeficit, State.flushRemainder] <;>
    split_ifs <;> rfl

@[simp] theorem State.flush_cmd (s : State) (mode : PadMode) : (s.flush mode).cmd = s.cmd := by
  cases mode <;> simp only [State.flush, State.setMaskRegs_cmd, State.flushDeficit, State.flushRemainder] <;>
    split_ifs <;> rfl

/-- What a deficit flush leaves on the MASK stream (R116). -/
theorem State.flush_deficit_maskOut (s : State) :
    (s.flush .deficit).maskOut =
      if s.cnt = 0#3 then s.maskOut else s.maskOut ++ [s.acc <<< (8 - s.cnt.toNat)] := by
  by_cases h : s.cnt = 0#3 <;> simp [State.flush, State.flushDeficit, h]

/-! ### The two commands, field by field (R140, R141) -/

/-- `PIX` always completes, in the state of `encodePixel` (R140). -/
theorem execPix_eq (r g b a : Byte) (s : State) :
    execPix r g b a s = .next (s.encodePixel { r := r, g := g, b := b, a := a }) := rfl

/-- `END` always completes, in the state of `closeFrame` (R141). -/
theorem execEnd_eq (s : State) : execEnd s = .next (s.closeFrame hardwareConfig) := rfl

@[simp] theorem State.encodePixel_pixOut (s : State) (p : Sample) :
    (s.encodePixel p).pixOut = s.pixOut ++ [p.pair.1, p.pair.2] := by
  simp [State.encodePixel, State.emitPair]

@[simp] theorem State.encodePixel_frames (s : State) (p : Sample) : (s.encodePixel p).frames = s.frames := by
  simp [State.encodePixel, State.emitPair]

@[simp] theorem State.encodePixel_cmd (s : State) (p : Sample) : (s.encodePixel p).cmd = s.cmd := by
  simp [State.encodePixel, State.emitPair]

/-- The MASK half of a pixel is a shift-in: it does not see the PIX half (R140). -/
theorem State.encodePixel_mask (s : State) (p : Sample) :
    (s.encodePixel p).acc = (s.shiftIn (maskBit p.a)).acc ∧ (s.encodePixel p).cnt = (s.shiftIn (maskBit p.a)).cnt ∧
      (s.encodePixel p).maskOut = (s.shiftIn (maskBit p.a)).maskOut := by
  by_cases h : s.cnt = 7#3 <;>
    simp [State.encodePixel, State.emitPair, State.shiftIn, h]

@[simp] theorem State.closeFrame_acc (s : State) (c : Config) : (s.closeFrame c).acc = 0#8 := rfl

@[simp] theorem State.closeFrame_cnt (s : State) (c : Config) : (s.closeFrame c).cnt = 0#3 := rfl

@[simp] theorem State.closeFrame_pixOut (s : State) (c : Config) : (s.closeFrame c).pixOut = [] := rfl

@[simp] theorem State.closeFrame_maskOut (s : State) (c : Config) : (s.closeFrame c).maskOut = [] := rfl

@[simp] theorem State.closeFrame_frames (s : State) (c : Config) :
    (s.closeFrame c).frames = s.frames ++ [{ pix := s.pixOut, mask := (s.flush c.padMode).maskOut }] := by
  simp [State.closeFrame]

@[simp] theorem State.closeFrame_cmd (s : State) (c : Config) : (s.closeFrame c).cmd = s.cmd := by
  simp [State.closeFrame]

end Sys2Proof.Machine
end

