-- ==== Sys2Proof/Laws/PerInstr.lean ====
section
/-!
SUPPORT. What holds of every command as syntax, one lemma per constructor.
-/

namespace Sys2Proof.Laws

/-- The word of a command carries the match bits of its own opcode-map row, under that row's mask (R62). -/
def TableRow.Statement (i : Instr) : Prop := encode i &&& i.opRow.mask = i.opRow.matchBits

theorem TableRow.pix (r g b a : Byte) : TableRow.Statement (.pix r g b a) := by
  have hr := r.isLt
  have hg := g.isLt
  have hb := b.isLt
  have ha := a.isLt
  have hop : (encode (.pix r g b a)).getLsbD 32 = false := by
    rw [opBit_eq, encode_pix_toNat, decide_eq_false_iff_not]
    omega
  have hrow := rowCovers_pixRow (encode (.pix r g b a))
  rw [hop] at hrow
  exact eq_of_beq hrow

theorem TableRow.endFrame : TableRow.Statement .endFrame := by
  unfold TableRow.Statement
  decide

end Sys2Proof.Laws
end

