-- ==== Sys2Proof/Laws/Quantizer.lean ====
section
/-!
SUPPORT. The functions of the quantizer as numbers (R80 to R86).
-/

namespace Sys2Proof.Machine

/-- No five-bit narrowing loses anything (R82). -/
theorem scale5_toNat (x : Byte) : (scale5 x).toNat = 31 * x.toNat / 255 := by
  have hx := x.isLt
  simp only [scale5, zext, BitVec.toNat_ofNat]
  omega

/-- No six-bit narrowing loses anything (R82). -/
theorem scale6_toNat (x : Byte) : (scale6 x).toNat = 63 * x.toNat / 255 := by
  have hx := x.isLt
  simp only [scale6, zext, BitVec.toNat_ofNat]
  omega

/-- Fields in disjoint places: the OR is the sum (R83, R84). -/
theorem pack_toNat (g5 : BitVec 5) (r6 : BitVec 6) (b5 : BitVec 5) :
    (pack g5 r6 b5).toNat = 2048 * g5.toNat + 32 * r6.toNat + b5.toNat := by
  have hg := g5.isLt
  have hr := r6.isLt
  have hb := b5.isLt
  simp only [pack, BitVec.toNat_or, BitVec.toNat_shiftLeft, BitVec.toNat_setWidth, Nat.shiftLeft_eq]
  rw [Nat.mod_eq_of_lt (a := g5.toNat) (by omega), Nat.mod_eq_of_lt (a := r6.toNat) (by omega),
    Nat.mod_eq_of_lt (a := b5.toNat) (by omega), Nat.mod_eq_of_lt (a := g5.toNat * 2 ^ 11) (by omega),
    Nat.mod_eq_of_lt (a := r6.toNat * 2 ^ 5) (by omega), Nat.or_assoc, Nat.mul_comm r6.toNat,
    ← Nat.two_pow_add_eq_or_of_lt hb, Nat.mul_comm g5.toNat, ← Nat.two_pow_add_eq_or_of_lt (i := 11) (by omega)]
  omega

/-- The packed value of a colour as a number (R83, R88). -/
theorem packedOf_toNat (r g b : Byte) :
    (packedOf r g b).toNat =
      2048 * (31 * g.toNat / 255) + 32 * (63 * r.toNat / 255) + 31 * b.toNat / 255 := by
  rw [packedOf, pack_toNat, scale5_toNat, scale6_toNat, scale5_toNat]

/-- The high byte as a number (R85). -/
theorem hiByte_toNat (p : Packed) : (hiByte p).toNat = p.toNat / 256 % 255 := by
  simp only [hiByte, BitVec.toNat_ofNat, BitVec.toNat_ushiftRight, Nat.shiftRight_eq_div_pow]
  omega

/-- The low byte as a number (R86). -/
theorem loByte_toNat (p : Packed) : (loByte p).toNat = p.toNat % 256 := by
  have : (0x00FF#16 : BitVec 16).toNat = 2 ^ 8 - 1 := rfl
  simp only [loByte, BitVec.toNat_setWidth, BitVec.toNat_and, this, Nat.and_two_pow_sub_one_eq_mod]
  omega

end Sys2Proof.Machine
end

