-- ==== Sys2Proof/Laws/Step.lean ====
section
/-!
SUPPORT. What a step can do, said once: the next state for each input, and the case analysis over them.
-/

namespace Sys2Proof.Machine

theorem exec_pix (r g b a : Byte) (s : State) :
    exec (.pix r g b a) s = .next (s.encodePixel { r := r, g := g, b := b, a := a }) := rfl

theorem exec_endFrame (s : State) : exec .endFrame s = .next (s.closeFrame hardwareConfig) := rfl

/-- The state a command leads to (R140, R141). -/
def State.afterInstr (s : State) : Instr → State
  | .pix r g b a => s.encodePixel { r := r, g := g, b := b, a := a }
  | .endFrame => s.closeFrame hardwareConfig

/-- Every command has a next state (R160). -/
theorem exec_eq_next (i : Instr) (s : State) : exec i s = .next (s.afterInstr i) := by cases i <;> rfl

/-- The state an input leads to, the input itself already taken. -/
def State.afterInput (s : State) : Input → State
  | .command w => s.afterInstr (decode w)
  | .reset => s.applyReset
  | .resetOver _ => s.applyReset
  | .sourceIdle => s
  | .sinkStall => s

theorem step_nil {s : State} (h : s.cmd = []) : step s = .next s := by
  unfold step State.takeInput; rw [h]; rfl

theorem step_cons {s : State} {e : Input} {rest : List Input} (h : s.cmd = e :: rest) :
    step s = .next (({ s with cmd := rest } : State).afterInput e) := by
  unfold step State.takeInput; rw [h]
  cases e <;> first | rfl | exact exec_eq_next _ _

/-- Everything a step can do: wait with nothing sent, or take the next input (R16, R20, R186). -/
theorem step_cases {s t : State} (h : step s = .next t) :
    (s.cmd = [] ∧ t = s) ∨
      ∃ e rest, s.cmd = e :: rest ∧ t = ({ s with cmd := rest } : State).afterInput e := by
  cases hc : s.cmd with
  | nil => rw [step_nil hc] at h; cases h; exact .inl ⟨rfl, rfl⟩
  | cons e rest => rw [step_cons hc] at h; cases h; exact .inr ⟨e, rest, rfl, rfl⟩

end Sys2Proof.Machine
end

