-- ==== Sys2Proof/Tests/Slice0.lean ====
section
/-!
SUPPORT. The model's own tests: ill-formed lines refused, words written out from the spec's encoding, one step per test
with the spec's own numbers (95_test_vectors.md), and for every statement with hypotheses a state and operands that meet
them.
-/

namespace Sys2Proof.Tests

open Machine

/-! ### Ill-formed lines: one for each check of WellFormed (R70) -/

theorem test_refuses_red_256 : (AsmLine.pix 256 0 0 0).wellFormed = false := by decide
theorem test_refuses_green_256 : (AsmLine.pix 0 256 0 0).wellFormed = false := by decide
theorem test_refuses_blue_256 : (AsmLine.pix 0 0 256 0).wellFormed = false := by decide
theorem test_refuses_alpha_256 : (AsmLine.pix 0 0 0 256).wellFormed = false := by decide
theorem test_refuses_pixo_red_256 : (AsmLine.pixo 256 0 0).wellFormed = false := by decide
theorem test_refuses_pixo_green_256 : (AsmLine.pixo 0 256 0).wellFormed = false := by decide
theorem test_refuses_pixo_blue_256 : (AsmLine.pixo 0 0 256).wellFormed = false := by decide
theorem test_refuses_second_sample : (AsmLine.frame [(255, 255, 255, 255), (0, 0, 0, 256)]).wellFormed = false := by
  decide
theorem test_accepts_largest_operands : (AsmLine.pix 255 255 255 255).wellFormed = true := by decide

/-! ### Decoding words written out from R60 (table of 95_test_vectors.md, Part 4.1) -/

theorem test_decode_pix_fields : decode 0b0_11001000_01100100_00110010_11111111#33 = .pix 200 100 50 255 := by decide
theorem test_decode_pix_transparent : decode 0b0_00001100_00100010_00111000_00000000#33 = .pix 12 34 56 0 := by decide
theorem test_decode_end : decode 0b1_00000000_00000000_00000000_00000000#33 = .endFrame := by decide
theorem test_decode_end_payload : decode 0b1_11001000_01100100_00110010_11111111#33 = .endFrame := by decide
theorem test_decode_number : decodeTableWord 40 0x0C86432FF = some (.pix 200 100 50 255) := by decide
theorem test_decode_number_too_wide : decodeTableWord 40 0x2C86432FF = none := by decide
theorem test_encode_pix : encode (.pix 200 100 50 255) = 0x0C86432FF#33 := by decide

/-! ### One step of each kind -/

/-- P3 after row 7. -/
def beforeEighthPixel : State :=
  { acc := 0x5D, cnt := 7
    pixOut := [0x66, 0x26, 0xFF, 0xFE, 0x07, 0xE0, 0xF8, 0x00, 0x00, 0x1F, 0xFF, 0xFE, 0x7B, 0xEF]
    maskOut := [], frames := [], cmd := [] }

/-- The example state of R141. -/
def tenOpaquePixels : State :=
  { acc := 0b11, cnt := 2, pixOut := [], maskOut := [0xFF], frames := [], cmd := [] }

/-- A frame boundary after one completed frame (P2). -/
def boundary : State :=
  { acc := 0, cnt := 0, pixOut := [], maskOut := [], frames := [{ pix := [0xFF, 0xFE], mask := [0x00] }], cmd := [] }

/-- P3 row 8: the high byte wraps to 0, and the eighth pixel emits the MASK byte `BB`. -/
theorem test_pix_wraps_and_completes_a_group :
    step { beforeEighthPixel with cmd := [.command 0x0E3FF00FF] } =
      .next { beforeEighthPixel with
        acc := 0, cnt := 0, pixOut := beforeEighthPixel.pixOut ++ [0x00, 0x00], maskOut := [0xBB] } := by rfl

/-- R140's example: opaque white from reset. -/
theorem test_pix_white_from_reset :
    step (State.reset.withFetchWord 40 0x0FFFFFFFF) =
      .next { State.reset with acc := 1, cnt := 1, pixOut := [0x00, 0xFF] } := by rfl

/-- R141's example: `END` pads two bits to `C0`. -/
theorem test_end_pads_two_bits :
    step (tenOpaquePixels.withFetchWord 40 0x100000000) =
      .next { State.reset with frames := [{ pix := [], mask := [0xFF, 0xC0] }] } := by rfl

/-- P5 row 2: an `END` with a payload closes an empty frame. -/
theorem test_end_of_an_empty_frame :
    step (boundary.withFetchWord 40 0x1DEADBEEF) =
      .next { boundary with frames := boundary.frames ++ [{ pix := [], mask := [] }] } := by rfl

/-- P6 row 4: reset discards the pending bits and emits nothing. -/
theorem test_reset_discards_pending_bits :
    step { tenOpaquePixels with cmd := [.reset] } = .next State.reset := by rfl

/-- R162: reset wins over the command offered with it. -/
theorem test_reset_wins :
    step { tenOpaquePixels with cmd := [.resetOver 0x0FFFFFFFF] } = .next State.reset := by rfl

/-! ### Functions, against the spec's vectors -/

/-- T7 and the example of R88. -/
theorem test_quantize_vectors :
    quantizeRgb565 255 255 255 255 = (0x00#8, 0xFF#8) ∧ quantizeRgb565 200 100 50 255 = (0x66#8, 0x26#8) := by decide

/-- T5 by both packings. -/
theorem test_mask_example :
    packAlphaMask [true, false, true, true, false, false, false, false] = [0xB0#8] ∧
    packLiteral .deficit [true, false, true, true, false, false, false, false] = [0xB0#8] := by decide

/-- P7: `REMAINDER` padding at `CNT = 5` emits the last real byte and a zero byte. -/
theorem test_remainder_flush :
    (({ State.reset with acc := 0x1F, cnt := 5 } : State).flush .remainder).maskOut = [0xF8, 0x00] := by decide

/-- R70: the text of the example line assembles to its word. -/
theorem test_assemble_text :
    assembleText ['P', 'I', 'X', ' ', '2', '0', '0', ',', ' ', '0', 'x', '6', '4', ',', '5', '0', ',', '2', '5', '5', ' ', '#', '1'] =
      .ok [.command 0x0C86432FF] := by decide

/-- R70: the word of the example line in nine hexadecimal digits. -/
theorem test_word_text : wordText 0x0C86432FF = ['0', 'x', '0', 'C', '8', '6', '4', '3', '2', 'F', 'F'] := by decide

/-! ### The hypotheses of the statements are met

Each theorem is named after its statement and meets all its hypotheses together, at the ends of their ranges where they
have ends. -/

theorem witness_NoCommandMeansWaiting : boundary.cmd = [] := by decide

theorem witness_StepRunsTheDecodedCommand :
    (0x1FFFFFFFF < 2 ^ 33 ∧ 0x1FFFFFFFF < 2 ^ 40) ∧ (0 < 2 ^ 33 ∧ 0 < 2 ^ 0) := by decide

theorem witness_EndIgnoresItsPayload :
    (0x100000000#33).getLsbD 32 = true ∧ (0x1FFFFFFFF#33).getLsbD 32 = true := by decide

theorem witness_TransparentPixelIgnoresItsColour : (1 : Byte) ≠ 0 ∧ (255 : Byte) ≠ 0 := by decide

theorem witness_DisassemblyIsCanonical :
    (0x0FFFFFFFF#33).getLsbD 32 = false ∧ (0x100000000#33).getLsbD 32 = true := by decide

theorem witness_OpcodeRowsPartitionTheWords :
    pixRow ∈ opRows ∧ rowCovers pixRow 0x0FFFFFFFF = true ∧ endRow ∈ opRows ∧ rowCovers endRow 0x100000000 = true := by
  decide

theorem witness_ScaleFiveIsTheFloor : 0 ≤ 31 ∧ 31 ≤ (scale5 255).toNat ∧ ¬31 ≤ (scale5 254).toNat := by decide

theorem witness_ScaleSixIsTheFloor : 0 ≤ 63 ∧ 63 ≤ (scale6 255).toNat ∧ ¬63 ≤ (scale6 254).toNat := by decide

theorem witness_ScalingIsNotTruncation : (254#8 : Byte) ≠ 255#8 := by decide

theorem witness_HighByteIsTakenModulo255 :
    (0xFFFF#16).toNat / 256 = 255 ∧ hiByte 0xFFFF = 0 ∧ (0xFEFF#16).toNat / 256 ≠ 255 ∧ hiByte 0xFEFF = 0xFE := by decide

theorem witness_SentinelIsNeverAnOpaquePair :
    ((1 : Byte) ≠ 0 ∧ 247 ≤ (247#8).toNat ∧ (247#8).toNat ≤ 254) ∧ (255 : Byte) ≠ 0 ∧ 247 ≤ (254#8).toNat ∧
      (254#8).toNat ≤ 254 := by decide

theorem witness_HighByteWrapsExactlyForBrightYellow :
    (255 : Byte) ≠ 0 ∧ (packedOf 227 255 0).toNat / 256 = 255 ∧ ¬(packedOf 226 255 0).toNat / 256 = 255 ∧
      (quantizeRgb565 32 8 0 255).1 = 0#8 ∧ (quantizeRgb565 33 8 0 255).1 ≠ 0#8 := by decide

theorem witness_NonzeroAlphaDoesNotTouchTheColour : 1 ≤ (1#8).toNat ∧ 1 ≤ (255#8).toNat := by decide

theorem witness_ScalingIsMonotone :
    (100#8).toNat ≤ (101#8).toNat ∧ (0#8).toNat ≤ (255#8).toNat ∧ (255#8).toNat ≤ (255#8).toNat := by decide

theorem witness_PairReadsBackItsFields :
    (quantizeRgb565 12 34 56 0).1 = 0xFF#8 ∧ (1 : Byte) ≠ 0 ∧ (quantizeRgb565 12 34 56 1).1 ≠ 0#8 ∧
      (quantizeRgb565 227 255 0 1).1 = 0#8 := by decide

/-- Both cases of the conditional: the seventh and the eighth pixel of a group. -/
theorem witness_PixEncodesOnePixel :
    beforeEighthPixel.cnt.toNat = 7 ∧ tenOpaquePixels.cnt.toNat ≠ 7 ∧ (0#8).toNat = 0 ∧ (1#8).toNat ≠ 0 := by decide

theorem witness_EndClosesTheFrame :
    boundary.cnt.toNat = 0 ∧ tenOpaquePixels.cnt.toNat ≠ 0 ∧ beforeEighthPixel.cnt.toNat ≠ 0 := by decide

theorem witness_PixFrame :
    beforeEighthPixel.cnt.toNat = 7 ∧ 13 ≠ beforeEighthPixel.pixOut.length ∧ 13 ≠ beforeEighthPixel.pixOut.length + 1 ∧
      beforeEighthPixel.pixByte 13 = some 0xEF ∧ ¬(tenOpaquePixels.cnt.toNat = 7 ∧ 0 = tenOpaquePixels.maskOut.length) ∧
      tenOpaquePixels.maskByte 0 = some 0xFF := by decide

theorem witness_EndFrameCondition :
    ¬(tenOpaquePixels.cnt.toNat ≠ 0 ∧ 0 = tenOpaquePixels.maskOut.length) ∧ tenOpaquePixels.maskByte 0 = some 0xFF := by
  decide

theorem witness_EmptyFrameIsLegal : AtFrameStart boundary := by decide

theorem witness_PixBytesDependOnTheSampleOnly :
    (∃ t, exec (.pix 1 2 3 4) beforeEighthPixel = .next t) ∧ ∃ t, exec (.pix 1 2 3 4) tenOpaquePixels = .next t :=
  ⟨⟨_, rfl⟩, ⟨_, rfl⟩⟩

theorem witness_MaskHalfDoesNotSeeTheColour :
    tenOpaquePixels.acc = ({ tenOpaquePixels with pixOut := [0x00] } : State).acc ∧
    tenOpaquePixels.cnt = ({ tenOpaquePixels with pixOut := [0x00] } : State).cnt ∧
    tenOpaquePixels.maskOut = ({ tenOpaquePixels with pixOut := [0x00] } : State).maskOut ∧
    (∃ t, exec (.pix 1 2 3 9) tenOpaquePixels = .next t) ∧
    ∃ t, exec (.pix 5 6 7 9) { tenOpaquePixels with pixOut := [0x00] } = .next t :=
  ⟨rfl, rfl, rfl, ⟨_, rfl⟩, ⟨_, rfl⟩⟩

/-- A `PIX` step changes PIX and (as the eighth) MASK; an `END` step changes DONE. -/
theorem witness_StreamsAreWrittenByTheirCommandsOnly :
    (∃ t, step { beforeEighthPixel with cmd := [.command 0x0FFFFFFFF] } = .next t ∧
      t.pixLog ≠ beforeEighthPixel.pixLog ∧ t.maskLog ≠ beforeEighthPixel.maskLog) ∧
    (∃ t, step { boundary with cmd := [.command 0x100000000] } = .next t ∧ t.doneStream ≠ boundary.doneStream) ∧
    Input.command 0x0FFFFFFFF ≠ .reset ∧ ∀ w, Input.command 0x0FFFFFFFF ≠ .resetOver w := by
  refine ⟨⟨_, rfl, by decide⟩, ⟨_, rfl, by decide⟩, by decide, ?_⟩
  intro w h
  cases h

theorem witness_StreamsAreAppendOnly :
    ({ boundary with cmd := [.command 0x0FFFFFFFF] } : State).cmd.head? ≠ some .reset ∧
    (∀ w, ({ boundary with cmd := [.command 0x0FFFFFFFF] } : State).cmd.head? ≠ some (.resetOver w)) ∧
    ∃ t, step { boundary with cmd := [.command 0x0FFFFFFFF] } = .next t := by
  refine ⟨by decide, ?_, ⟨_, rfl⟩⟩
  intro w h
  cases h

/-- Two states that agree in `ACC` and `CNT` and differ in all three histories. -/
theorem witness_StreamsAreAppendOnly_write_only :
    let other : State := { tenOpaquePixels with pixOut := [0x00], maskOut := [], frames := boundary.frames }
    tenOpaquePixels.acc = other.acc ∧ tenOpaquePixels.cnt = other.cnt ∧ tenOpaquePixels.pixOut ≠ other.pixOut ∧
      tenOpaquePixels.maskOut ≠ other.maskOut ∧ tenOpaquePixels.frames ≠ other.frames := by decide

/-- Both halves: samples at the ends of the range, and one operand just outside it. -/
theorem witness_FrameLineAssemblesOrIsRefused :
    (∀ p ∈ [(255, 255, 255, 255), (0, 0, 0, 0)], p.1 ≤ 255 ∧ p.2.1 ≤ 255 ∧ p.2.2.1 ≤ 255 ∧ p.2.2.2 ≤ 255) ∧
    ∃ p ∈ [(255, 255, 255, 255), (0, 0, 0, 256)], 255 < p.1 ∨ 255 < p.2.1 ∨ 255 < p.2.2.1 ∨ 255 < p.2.2.2 := by decide

/-- P3 row 8: the eighth pixel's pair and MASK byte, in one of the three orders; then an `END` that pads nothing. -/
theorem witness_SinksSeeAnyInterleavingCutAtDone :
    boundary.admits [.mask 0x00, .pix 0xFF, .pix 0xFE, .done] = true ∧
    (∃ t, exec (.pix 227 255 0 255) { beforeEighthPixel with pixOut := [] } = .next t ∧
      ({ beforeEighthPixel with pixOut := [] } : State).admits [] = true ∧
      Delivered.done ∉ [Delivered.pix 0x00, .mask 0xBB, .pix 0x00] ∧
      [] ++ pixOf [.pix 0x00, .mask 0xBB, .pix 0x00] = t.pixOut ∧
      [] ++ maskOf [.pix 0x00, .mask 0xBB, .pix 0x00] = t.maskOut) ∧
    ∃ t, exec .endFrame boundary = .next t ∧ t.frames = boundary.frames ++ [{ pix := [], mask := [] }] :=
  ⟨by decide, ⟨_, rfl, by decide⟩, ⟨_, rfl, by decide⟩⟩

/-- One completed frame whose MASK byte comes first, and nothing of the next: the pieces hold no token of their own, and
both sides of the equivalence hold. -/
theorem witness_SinksSeeAnyInterleavingCutAtDone_pieces :
    let pieces : List (List Delivered) := [[.mask 0x00, .pix 0xFF, .pix 0xFE]]
    (∀ piece ∈ pieces, Delivered.done ∉ piece) ∧ Delivered.done ∉ ([] : List Delivered) ∧
      boundary.admits (pieces.flatMap (fun piece => piece ++ [.done]) ++ []) = true ∧
      pieces.length = boundary.frames.length := by decide

/-- R55: MASK byte 0 of a frame before all PIX bytes of its first eight pixels, legal beside the order of the steps. -/
theorem test_mask_byte_may_come_first :
    let s : State :=
      { beforeEighthPixel with acc := 0, cnt := 0, pixOut := beforeEighthPixel.pixOut ++ [0x00, 0x00], maskOut := [0xBB] }
    s.admits ([.mask 0xBB] ++ s.pixOut.map .pix) = true ∧ s.admits (s.pixOut.map .pix ++ [.mask 0xBB]) = true := by decide

theorem witness_LiteralAccumulatorIsAccShiftedLeft :
    State.reset.acc = 0#8 ∧ State.reset.cnt = 0#3 ∧ (List.replicate 7 true).length ≤ 7 ∧
      (List.replicate 8 true).length ≤ 8 := by decide

theorem witness_GroupIsPackedMostSignificantFirst : 0 < 8 ∧ 7 < 8 := by decide

theorem witness_FlushPadsWithZeroBits :
    boundary.cnt = 0#3 ∧ tenOpaquePixels.cnt ≠ 0#3 ∧ beforeEighthPixel.cnt ≠ 0#3 := by decide

theorem witness_EncoderEmitsPackAlphaMask : boundary.acc = 0#8 ∧ boundary.cnt = 0#3 := by decide

theorem witness_EncoderAgreesWithTheLiteralLoop : boundary.acc = 0#8 ∧ boundary.cnt = 0#3 := by decide

theorem witness_UnfinishedFrameHoldsItsLastBits : AtFrameStart boundary := by decide

theorem witness_FrameCommandsEncodeTheFrame : AtFrameStart State.reset := by decide

theorem witness_FramesAreIndependent : AtFrameStart boundary := by decide

theorem witness_UnendedFrameIsNotComplete : boundary.cmd = [] := by decide

theorem witness_PixelBufferLayout :
    AtFrameStart boundary ∧ [Sample.mk 1 2 3 4][0]? = some (Sample.mk 1 2 3 4) := by decide

/-- A real bit and a pad bit of the last byte. -/
theorem witness_MaskBufferLayout :
    AtFrameStart boundary ∧ (encodeFrame [Sample.mk 1 2 3 4]).mask[0]? = some 0x80 ∧ 0 < 8 ∧ 7 < 8 ∧
      [Sample.mk 1 2 3 4][8 * 0 + 7]? = none := by decide

theorem witness_MaskAndSentinelAgree :
    AtFrameStart boundary ∧ [Sample.mk 1 2 3 4, Sample.mk 1 2 3 0][1]? = some (Sample.mk 1 2 3 0) := by decide

theorem witness_MaskRowsAreNotByteAligned :
    AtFrameStart boundary ∧ (List.replicate 10 (Sample.mk 1 2 3 4)).length = 5 * 2 ∧ 4 < 5 ∧ 1 < 2 := by decide

theorem witness_SplittingAtMultiplesOfEightIsSound : (List.replicate 8 (Sample.mk 1 2 3 4)).length % 8 = 0 := by decide

/-- A consistent state in the middle of a group and of a frame, with a completed frame behind it. -/
theorem witness_EveryStepKeepsTheInvariant :
    Consistent { beforeEighthPixel with frames := boundary.frames } ∧
    ∃ t, step { beforeEighthPixel with frames := boundary.frames, cmd := [.command 0x0E3FF00FF] } = .next t :=
  ⟨by decide, ⟨_, rfl⟩⟩

theorem witness_AccumulatorStaysBelowItsCount :
    beforeEighthPixel.acc.toNat < 2 ^ beforeEighthPixel.cnt.toNat ∧ boundary.acc.toNat < 2 ^ boundary.cnt.toNat ∧
      boundary.cnt = 0#3 ∧ ∃ t, step beforeEighthPixel = .next t :=
  ⟨by decide, by decide, by decide, ⟨_, rfl⟩⟩

theorem witness_CountsFollowThePixels :
    (beforeEighthPixel.pixOut.length = 2 * 7 ∧ beforeEighthPixel.cnt.toNat = 7 % 8 ∧
      beforeEighthPixel.maskOut.length = 7 / 8) ∧ ∃ t, step beforeEighthPixel = .next t :=
  ⟨by decide, ⟨_, rfl⟩⟩

end Sys2Proof.Tests
end

/-! Proofs of the statements of `00_scope.md`: a step as the execution of its word, and the frame of `PIX`. -/

namespace Sys2Proof.Machine

/-! ### A step on a command word (R16, R54, R143) -/

/-- A step takes the command word and executes it in the state without it (R16, R54). -/
theorem step_command (s : State) (w : CmdWord) (rest : List Input) :
    step { s with cmd := .command w :: rest } = exec (decode w) { s with cmd := rest } := by
  rw [exec_eq_next]
  exact step_cons (s := { s with cmd := .command w :: rest }) rfl

/-- A step on an offered word is its command in the state before the offer (R40, R143). -/
theorem step_offer (s : State) (w : CmdWord) : step (s.offer w) = exec (decode w) s :=
  step_command s w s.cmd

/-- A word that fits in its `nbits` bits is offered as it stands. -/
theorem State.withFetchWord_eq_offer (s : State) {nbits w : Nat} (h : w < 2 ^ nbits) :
    s.withFetchWord nbits w = s.offer (BitVec.ofNat 33 w) := by
  rw [State.withFetchWord, Nat.mod_eq_of_lt h]

/-- Settles O6: the word is the next input, and `withFetchWord` offers exactly the word written. -/
theorem stepRunsTheDecodedCommand : Obligations.StepRunsTheDecodedCommand := by
  refine ⟨step_command, ?_⟩
  intro s nbits w _ hbits
  rw [State.withFetchWord_eq_offer s hbits, step_offer]

/-! ### What a pixel stores, and what it leaves (R12, R48, R148) -/

/-- `CNT = 7` as a number. -/
theorem cnt_toNat_eq_seven (cnt : BitVec 3) : cnt.toNat = 7 ↔ cnt = 7#3 :=
  BitVec.toNat_inj (y := 7#3)

/-- Shift-in emits a MASK byte exactly when it completes a group (R112, R113). -/
theorem State.shiftIn_maskOut (s : State) (m : Bool) :
    (s.shiftIn m).maskOut = if s.cnt = 7#3 then s.maskOut ++ [shiftedIn s.acc m] else s.maskOut := by
  by_cases h : s.cnt = 7#3
  · simp [State.shiftIn_completes s m h, h]
  · simp [State.shiftIn_pending s m h, h]

/-- The MASK bytes of a pixel are those of its mask bit (R113, R140). -/
theorem State.encodePixel_maskOut (s : State) (p : Sample) :
    (s.encodePixel p).maskOut =
      if s.cnt = 7#3 then s.maskOut ++ [shiftedIn s.acc (maskBit p.a)] else s.maskOut := by
  obtain ⟨-, -, hmask⟩ := s.encodePixel_mask p
  rw [hmask, State.shiftIn_maskOut]

/-- An emitted pair stores to the next two PIX offsets only (R12, R42). -/
theorem pixByte_emitPair_other (s : State) (p : Byte × Byte) {o : Nat} (hhi : o ≠ s.pixOut.length)
    (hlo : o ≠ s.pixOut.length + 1) : (s.emitPair p).pixByte o = s.pixByte o := by
  have hlo' : o ≠ (s.emitPix p.1).pixOut.length := by simpa using hlo
  rw [State.emitPair, pixByte_emitPix_other _ _ hlo', pixByte_emitPix_other _ _ hhi]

/-- A pixel stores to the next two PIX offsets only (R140, R148). -/
theorem pixByte_encodePixel_other (s : State) (p : Sample) {o : Nat} (hhi : o ≠ s.pixOut.length)
    (hlo : o ≠ s.pixOut.length + 1) : (s.encodePixel p).pixByte o = s.pixByte o := by
  rw [← pixByte_emitPair_other s p.pair hhi hlo, State.pixByte, State.encodePixel, State.shiftIn_pixOut, State.pixByte]

/-- A pixel stores to the next MASK offset only, and only when it completes a group (R113, R148). -/
theorem maskByte_encodePixel_other (s : State) (p : Sample) {o : Nat}
    (h : ¬(s.cnt = 7#3 ∧ o = s.maskOut.length)) : (s.encodePixel p).maskByte o = s.maskByte o := by
  rw [State.maskByte, State.encodePixel_maskOut]
  split
  case isTrue hcnt => exact maskByte_emitMask_other s _ fun ho => h ⟨hcnt, ho⟩
  case isFalse => rfl

/-- The DONE stream is what `FRAMES` says it is (R25). -/
theorem State.doneStream_congr {s t : State} (h : t.frames = s.frames) : t.doneStream = s.doneStream := by
  rw [State.doneStream, h, State.doneStream]

/-- Settles O31: the PIX half is two appends, the MASK half one shift-in, and neither touches anything else. -/
theorem pixFrame : Obligations.PixFrame := by
  intro r g b a s
  simp only [cnt_toNat_eq_seven]
  refine ⟨_, exec_pix r g b a s, ?pix, ?mask, ?pixLength, ?maskLength, ?frames, ?done, ?cmd⟩
  case pix => exact fun o hhi hlo => pixByte_encodePixel_other s _ hhi hlo
  case mask => exact fun o h => maskByte_encodePixel_other s _ h
  case pixLength => simp
  case maskLength => rw [State.encodePixel_maskOut, apply_ite List.length, List.length_append, List.length_singleton]
  case frames => exact s.encodePixel_frames _
  case done => exact State.doneStream_congr (s.encodePixel_frames _)
  case cmd => exact s.encodePixel_cmd _

end Sys2Proof.Machine

/-! Proofs of the statements of `10_state.md`: reset, who writes which stream, the source's accumulator, and what every
step keeps of `ACC`, `CNT` and the histories. -/

namespace Sys2Proof.Machine

/-! ### What every step keeps -/

/-- What holds after a reset, is kept by both commands and does not read the inputs to come, every step keeps. -/
theorem step_keeps {P : State → Prop} (cmd : ∀ s rest, P s → P { s with cmd := rest })
    (reset : ∀ s : State, P s.applyReset) (pix : ∀ s p, P s → P (s.encodePixel p))
    (endFrame : ∀ s, P s → P (s.closeFrame hardwareConfig)) {s t : State} (hs : P s) (h : step s = .next t) : P t := by
  obtain ⟨-, rfl⟩ | ⟨e, rest, -, rfl⟩ := step_cases h
  · exact hs
  · have hs' := cmd s rest hs
    cases e with
    | command w =>
      rw [State.afterInput]
      cases decode w with
      | pix r g b a => exact pix _ _ hs'
      | endFrame => exact endFrame _ hs'
    | reset => exact reset _
    | resetOver _ => exact reset _
    | sourceIdle => exact hs'
    | sinkStall => exact hs'

/-! ### Frame boundaries (R35) -/

theorem atFrameStart_reset : AtFrameStart State.reset := ⟨rfl, rfl, rfl, rfl⟩

theorem State.atFrameStart_applyReset (s : State) : AtFrameStart s.applyReset := ⟨rfl, rfl, rfl, rfl⟩

theorem State.atFrameStart_closeFrame (s : State) (c : Config) : AtFrameStart (s.closeFrame c) :=
  ⟨rfl, rfl, rfl, rfl⟩

/-! ### The two registers after a mask bit (R112) -/

/-- `CNT` counts modulo 8 (R23, R112). -/
theorem State.shiftIn_cnt_toNat (s : State) (m : Bool) : (s.shiftIn m).cnt.toNat = (s.cnt.toNat + 1) % 8 := by
  by_cases h : s.cnt = 7#3
  · simp [State.shiftIn_completes s m h, h]
  · simp [State.shiftIn_pending s m h]

/-- `ACC` starts again with a group and otherwise takes the bit in at the bottom (R112). -/
theorem State.shiftIn_acc (s : State) (m : Bool) :
    (s.shiftIn m).acc = if s.cnt = 7#3 then 0#8 else shiftedIn s.acc m := by
  by_cases h : s.cnt = 7#3
  · simp [State.shiftIn_completes s m h, h]
  · simp [State.shiftIn_pending s m h, h]

/-! ### `ACC < 2^CNT` (R22) -/

/-- A shifted value is at most twice `ACC` plus the bit. -/
theorem shiftedIn_toNat_le (acc : Byte) (m : Bool) : (shiftedIn acc m).toNat ≤ 2 * acc.toNat + m.toNat := by
  rw [shiftedIn_toNat]
  exact Nat.mod_le _ _

/-- Shift-in keeps the number in `ACC` within `CNT` bits (R22). -/
theorem State.shiftIn_acc_lt (s : State) (m : Bool) (h : s.acc.toNat < 2 ^ s.cnt.toNat) :
    (s.shiftIn m).acc.toNat < 2 ^ (s.shiftIn m).cnt.toNat := by
  rw [State.shiftIn_acc]
  split
  case isTrue => exact Nat.two_pow_pos _
  case isFalse hcnt =>
    have hlt := s.cnt.isLt
    have hne := mt (cnt_toNat_eq_seven s.cnt).mp hcnt
    have hle := shiftedIn_toNat_le s.acc m
    have hm := m.toNat_le
    rw [State.shiftIn_cnt_toNat, Nat.mod_eq_of_lt (by omega), pow_succ]
    omega

/-- A pixel keeps the number in `ACC` within `CNT` bits (R22, R140). -/
theorem State.encodePixel_acc_lt (s : State) (p : Sample) (h : s.acc.toNat < 2 ^ s.cnt.toNat) :
    (s.encodePixel p).acc.toNat < 2 ^ (s.encodePixel p).cnt.toNat := by
  obtain ⟨hacc, hcnt, -⟩ := s.encodePixel_mask p
  rw [hacc, hcnt]
  exact s.shiftIn_acc_lt _ h

/-- Settles O58: shift-in doubles the bound, reset and `END` clear both registers, and `CNT` is at most 7. -/
theorem accumulatorStaysBelowItsCount : Obligations.AccumulatorStaysBelowItsCount := by
  refine ⟨by simp, ?_, ?_⟩
  · intro s t
    exact step_keeps (P := fun s => s.acc.toNat < 2 ^ s.cnt.toNat) (fun _ _ h => h) (by simp)
      (fun s p => s.encodePixel_acc_lt p) (by simp)
  · intro s h
    refine ⟨fun hcnt => ?_, ?_⟩
    · rw [hcnt] at h
      exact BitVec.eq_of_toNat_eq (Nat.lt_one_iff.mp h)
    · have hle : 2 ^ s.cnt.toNat ≤ 2 ^ 7 := Nat.pow_le_pow_right (by decide) (Nat.le_of_lt_succ s.cnt.isLt)
      exact Nat.testBit_lt_two_pow (h.trans_le hle)

/-! ### Counting pixels (R23, R43, R113) -/

/-- `CNT` is the number of pixels so far modulo 8, and MASK has one byte per eight of them (R23, R43, R113). -/
def State.CountsPixels (s : State) : Prop :=
  ∃ n, s.pixOut.length = 2 * n ∧ s.cnt.toNat = n % 8 ∧ s.maskOut.length = n / 8

/-- Empty streams and `CNT = 0` count no pixels (R35). -/
theorem State.countsPixels_of_atFrameStart {s : State} (h : AtFrameStart s) : s.CountsPixels := by
  obtain ⟨-, hcnt, hpix, hmask⟩ := h
  exact ⟨0, by simp [hpix], by simp [hcnt], by simp [hmask]⟩

/-- One pixel more: two PIX bytes, `CNT` one on modulo 8, and a MASK byte with every eighth (R23, R113, R140). -/
theorem State.CountsPixels.encodePixel {s : State} (h : s.CountsPixels) (p : Sample) :
    (s.encodePixel p).CountsPixels := by
  obtain ⟨n, hpix, hcnt, hmask⟩ := h
  refine ⟨n + 1, by simp [hpix]; omega, ?cnt, ?mask⟩
  case cnt =>
    obtain ⟨-, hcnt', -⟩ := s.encodePixel_mask p
    rw [hcnt', State.shiftIn_cnt_toNat, hcnt, Nat.mod_add_mod]
  case mask =>
    rw [State.encodePixel_maskOut]
    split
    case isTrue h7 =>
      have hseven := (cnt_toNat_eq_seven s.cnt).mpr h7
      rw [List.length_append, List.length_singleton]
      omega
    case isFalse h7 =>
      have hne := mt (cnt_toNat_eq_seven s.cnt).mp h7
      omega

/-- Settles O59: a pixel goes from `n` to `n + 1`, reset and `END` start again at 0. -/
theorem countsFollowThePixels : Obligations.CountsFollowThePixels := by
  intro s t
  exact step_keeps (P := State.CountsPixels) (fun _ _ h => h)
    (fun s => State.countsPixels_of_atFrameStart s.atFrameStart_applyReset)
    (fun _ p h => h.encodePixel p)
    (fun s _ => State.countsPixels_of_atFrameStart (s.atFrameStart_closeFrame _))

/-! ### The source's accumulator (R24, R114) -/

/-- Up to eight bits spell a byte (R22). -/
theorem bitsValue_lt_256 {bits : List Bool} (h : bits.length ≤ 8) : bitsValue bits < 256 :=
  (bitsValue_lt bits).trans_le (Nat.pow_le_pow_right (n := 2) (j := 8) (by decide) h)

/-- One bit more in the source's accumulator: OR it in, then shift left (R114). -/
theorem literalAcc_concat (bits : List Bool) (m : Bool) :
    literalAcc (bits ++ [m]) = (literalAcc bits ||| (BitVec.ofBool m).setWidth 9) <<< 1 := by
  rw [literalAcc, List.foldl_append]; rfl

/-- Up to eight bits the source's accumulator is their value shifted left by one (R24). -/
theorem literalAcc_toNat {bits : List Bool} (h : bits.length ≤ 8) : (literalAcc bits).toNat = 2 * bitsValue bits := by
  induction bits using List.reverseRecOn with
  | nil => rfl
  | append_singleton bits m ih =>
    have hlt := bitsValue_lt_256 h
    have hor : 2 * bitsValue bits ||| m.toNat = 2 * bitsValue bits + m.toNat :=
      (Nat.two_pow_add_eq_or_of_lt (i := 1) m.toNat_lt _).symm
    have hbit : ((BitVec.ofBool m).setWidth 9).toNat = m.toNat := by cases m <;> rfl
    rw [List.length_append] at h
    rw [bitsValue_concat] at hlt ⊢
    rw [literalAcc_concat, BitVec.toNat_shiftLeft, BitVec.toNat_or, ih (by omega), hbit, hor, Nat.shiftLeft_eq]
    omega

/-- The closing shift gives the group's value (R24, R114). -/
theorem packGroup_toNat {bits : List Bool} (h : bits.length ≤ 8) : (packGroup bits).toNat = bitsValue bits := by
  have hlt := bitsValue_lt_256 h
  rw [packGroup, BitVec.toNat_setWidth, BitVec.toNat_ushiftRight, literalAcc_toNat h, Nat.shiftRight_eq_div_pow]
  omega

/-! ### `pack_alpha_mask` group by group (R114, R120) -/

/-- The sum R120 writes for a byte is the value of the group's eight bits (R115). -/
theorem sum_bitAt_eq_bitsValue {g : List Bool} (h : g.length = 8) :
    ((List.range 8).map fun j => bitAt g j <<< (7 - j)).sum = bitsValue g := by
  match g, h with
  | [m0, m1, m2, m3, m4, m5, m6, m7], _ =>
    simp [List.range_succ, bitAt, bitsValue, Nat.shiftLeft_eq]
    omega

/-- Inside a group, a bit stands where it stands in the sequence. -/
theorem bitAt_groupAt (bits : List Bool) (q : Nat) {j : Nat} (hj : j < 8) :
    bitAt (groupAt bits q) j = bitAt bits (8 * q + j) := by
  simp [bitAt, groupAt, List.getD_eq_getElem?_getD, hj]

/-- Deficit padding fills up to a multiple of eight bits (R116). -/
theorem padded_deficit_eq (bits : List Bool) :
    padded .deficit bits = bits ++ List.replicate (8 * ceilDiv bits.length 8 - bits.length) false := by
  have hcount : padCount .deficit bits.length = 8 * ceilDiv bits.length 8 - bits.length := by
    simp only [padCount, ceilDiv]; omega
  rw [padded, hcount]

/-- `pack_alpha_mask` is the source's packing of the padded sequence (R114, R120). -/
theorem packAlphaMask_eq_packLiteral (bits : List Bool) : packAlphaMask bits = packLiteral .deficit bits := by
  have hlen : (padded .deficit bits).length = 8 * ceilDiv bits.length 8 := by
    simp only [padded_deficit_eq, List.length_append, List.length_replicate, ceilDiv]; omega
  have hcount : ceilDiv (padded .deficit bits).length 8 = 8 * ceilDiv bits.length 8 / 8 := by
    rw [hlen]; simp only [ceilDiv]; omega
  simp only [packAlphaMask, packLiteral, hcount, ← padded_deficit_eq]
  refine List.map_congr_left fun q hq => ?_
  have hgroup : (groupAt (padded .deficit bits) q).length = 8 := by
    rw [List.mem_range] at hq
    simp only [groupAt, List.length_take, List.length_drop, hlen]; omega
  have hsum := sum_bitAt_eq_bitsValue hgroup
  rw [← packGroup_toNat hgroup.le, List.map_congr_left fun j hj => by
    rw [bitAt_groupAt _ q (List.mem_range.mp hj)]] at hsum
  rw [hsum, BitVec.ofNat_toNat, BitVec.setWidth_eq]

@[simp] theorem packAlphaMask_nil : packAlphaMask [] = [] := rfl

/-- A full group is the first byte of a packing (R114, R120). -/
theorem packAlphaMask_group_append {g : List Bool} (bits : List Bool) (h : g.length = 8) :
    packAlphaMask (g ++ bits) = packGroup g :: packAlphaMask bits := by
  simp only [packAlphaMask_eq_packLiteral, packLiteral_group_append _ g bits h]

/-- Full groups are packed on their own, before the rest (R114, R120). -/
theorem packAlphaMask_append {left : List Bool} (right : List Bool) (h : left.length % 8 = 0) :
    packAlphaMask (left ++ right) = packAlphaMask left ++ packAlphaMask right := by
  induction left using bits_induction with
  | short left hshort =>
    have hnil : left = [] := List.eq_nil_of_length_eq_zero (by omega)
    simp [hnil]
  | group g left hg ih =>
    rw [List.length_append] at h
    rw [List.append_assoc, packAlphaMask_group_append _ hg, packAlphaMask_group_append _ hg, ih (by omega),
      List.cons_append]

/-- Zero bits below shift the value up (R116). -/
theorem bitsValue_append_zeros (bits : List Bool) (k : Nat) :
    bitsValue (bits ++ List.replicate k false) = bitsValue bits * 2 ^ k := by
  induction k with
  | zero => simp
  | succ k ih =>
    rw [List.replicate_succ', ← List.append_assoc, bitsValue_concat, ih, Bool.toNat_false, pow_succ]
    ring

/-- A group short of eight bits is packed as if it were filled up with zero bits (R116, R118). -/
theorem packAlphaMask_short {bits : List Bool} (hne : bits ≠ []) (h : bits.length ≤ 7) :
    packAlphaMask bits = [packGroup (bits ++ List.replicate (8 - bits.length) false)] := by
  have hpos := List.length_pos_iff.mpr hne
  have hceil : ceilDiv bits.length 8 = 1 := by simp only [ceilDiv]; omega
  have hpad : padded .deficit bits = bits ++ List.replicate (8 - bits.length) false := by
    rw [padded_deficit_eq, hceil]
  have hlen : (padded .deficit bits).length = 8 := by
    rw [hpad, List.length_append, List.length_replicate]; omega
  rw [packAlphaMask_eq_packLiteral, packLiteral, hlen, ← hpad]
  simp [ceilDiv, groupAt, List.take_of_length_le hlen.le]

/-- Shifting the pending bits to the top is filling the group up with zero bits (R116, R118). -/
theorem packGroup_append_zeros {acc : Byte} {bits : List Bool} (hacc : acc.toNat = bitsValue bits)
    (h : bits.length ≤ 8) :
    packGroup (bits ++ List.replicate (8 - bits.length) false) = acc <<< (8 - bits.length) := by
  have hlen : (bits ++ List.replicate (8 - bits.length) false).length = 8 := by
    rw [List.length_append, List.length_replicate, Nat.add_sub_cancel' h]
  apply BitVec.eq_of_toNat_eq
  rw [packGroup_toNat hlen.le, BitVec.toNat_shiftLeft, hacc, Nat.shiftLeft_eq, ← bitsValue_append_zeros,
    Nat.mod_eq_of_lt (bitsValue_lt_256 hlen.le)]

/-! ### What the mask encoder holds of the bits it has seen (R22, R23, R188) -/

/-- After the mask bits `bits` the block has emitted `out` and then the full groups of `bits`; `ACC` holds the remaining
bits, right-aligned, and `CNT` their number (R22, R23, R112, R188). -/
structure State.HoldsMask (s : State) (out : List Byte) (bits : List Bool) : Prop where
  maskOut : s.maskOut = out ++ packAlphaMask (bits.take (groupedBits bits.length))
  cnt : s.cnt.toNat = bits.length % 8
  acc : s.acc.toNat = bitsValue (bits.drop (groupedBits bits.length))

/-- As many bits lie in full groups as `groupedBits` says. -/
theorem length_take_groupedBits (bits : List Bool) :
    (bits.take (groupedBits bits.length)).length = groupedBits bits.length :=
  List.length_take_of_le (Nat.mul_div_le _ _)

/-- Fewer than eight bits lie in no full group. -/
theorem length_drop_groupedBits (bits : List Bool) :
    (bits.drop (groupedBits bits.length)).length = bits.length % 8 := by
  rw [List.length_drop, groupedBits]; omega

/-- The packing of a sequence: its full groups, then the rest (R114, R119). -/
theorem packAlphaMask_split (bits rest : List Bool) :
    packAlphaMask (bits ++ rest) = packAlphaMask (bits.take (groupedBits bits.length)) ++
      packAlphaMask (bits.drop (groupedBits bits.length) ++ rest) := by
  have hfull : (bits.take (groupedBits bits.length)).length % 8 = 0 := by
    rw [length_take_groupedBits, groupedBits, Nat.mul_mod_right]
  rw [← packAlphaMask_append _ hfull, ← List.append_assoc, List.take_append_drop]

namespace State.HoldsMask

variable {s : State} {out : List Byte} {bits : List Bool}

/-- At a group boundary nothing is pending (R35, R145). -/
theorem nil (hacc : s.acc = 0#8) (hcnt : s.cnt = 0#3) : s.HoldsMask s.maskOut [] where
  maskOut := by simp
  cnt := by simp [hcnt]
  acc := by simp [hacc, bitsValue]

/-- `CNT = 7` when the next bit completes a group. -/
theorem cnt_eq_seven_iff (h : s.HoldsMask out bits) : s.cnt = 7#3 ↔ bits.length % 8 = 7 := by
  rw [← cnt_toNat_eq_seven, h.cnt]

/-- The shifted value is the value of the pending bits and the new one (R22, R112). -/
theorem shiftedIn_toNat (h : s.HoldsMask out bits) (m : Bool) :
    (shiftedIn s.acc m).toNat = bitsValue (bits.drop (groupedBits bits.length) ++ [m]) := by
  have hlen : (bits.drop (groupedBits bits.length) ++ [m]).length ≤ 8 := by
    rw [List.length_append, length_drop_groupedBits, List.length_singleton]; omega
  rw [Machine.shiftedIn_toNat, h.acc, ← bitsValue_concat, Nat.mod_eq_of_lt (bitsValue_lt_256 hlen)]

/-- `CNT` counts the new bit too (R23). -/
theorem shiftIn_cnt (h : s.HoldsMask out bits) (m : Bool) :
    (s.shiftIn m).cnt.toNat = (bits ++ [m]).length % 8 := by
  rw [State.shiftIn_cnt_toNat, h.cnt, List.length_append, List.length_singleton, Nat.mod_add_mod]

/-- The eighth bit of a group: its byte is the packing of the group, and nothing is left pending (R112, R113). -/
theorem shiftIn_completes (h : s.HoldsMask out bits) (m : Bool) (h7 : bits.length % 8 = 7) :
    (s.shiftIn m).HoldsMask out (bits ++ [m]) := by
  have hgroup : (bits.drop (groupedBits bits.length) ++ [m]).length = 8 := by
    rw [List.length_append, length_drop_groupedBits, h7, List.length_singleton]
  have hall : groupedBits (bits ++ [m]).length = (bits ++ [m]).length := by
    rw [List.length_append, List.length_singleton, groupedBits]; omega
  have hbyte : packAlphaMask (bits.drop (groupedBits bits.length) ++ [m]) = [shiftedIn s.acc m] := by
    rw [← List.append_nil (_ ++ [m]), packAlphaMask_group_append _ hgroup, packAlphaMask_nil]
    congr 1
    exact BitVec.eq_of_toNat_eq ((packGroup_toNat hgroup.le).trans (h.shiftedIn_toNat m).symm)
  refine ⟨?maskOut, h.shiftIn_cnt m, ?acc⟩
  case maskOut =>
    rw [State.shiftIn_maskOut, if_pos (h.cnt_eq_seven_iff.mpr h7), h.maskOut, hall, List.take_length,
      packAlphaMask_split, hbyte, List.append_assoc]
  case acc => rw [State.shiftIn_acc, if_pos (h.cnt_eq_seven_iff.mpr h7), hall, List.drop_length]; rfl

/-- Any other bit joins the pending ones (R112). -/
theorem shiftIn_pending (h : s.HoldsMask out bits) (m : Bool) (h7 : bits.length % 8 ≠ 7) :
    (s.shiftIn m).HoldsMask out (bits ++ [m]) := by
  have hsame : groupedBits (bits ++ [m]).length = groupedBits bits.length := by
    rw [List.length_append, List.length_singleton, groupedBits, groupedBits]; omega
  have hle : groupedBits bits.length ≤ bits.length := Nat.mul_div_le _ _
  refine ⟨?maskOut, h.shiftIn_cnt m, ?acc⟩
  case maskOut =>
    rw [State.shiftIn_maskOut, if_neg (mt h.cnt_eq_seven_iff.mp h7), h.maskOut, hsame,
      List.take_append_of_le_length hle]
  case acc =>
    rw [State.shiftIn_acc, if_neg (mt h.cnt_eq_seven_iff.mp h7), h.shiftedIn_toNat, hsame,
      List.drop_append_of_le_length hle]

/-- One more mask bit (R112). -/
theorem shiftIn (h : s.HoldsMask out bits) (m : Bool) : (s.shiftIn m).HoldsMask out (bits ++ [m]) := by
  by_cases h7 : bits.length % 8 = 7
  · exact h.shiftIn_completes m h7
  · exact h.shiftIn_pending m h7

/-- Any number of mask bits (R112). -/
theorem foldl_shiftIn (h : s.HoldsMask out bits) (more : List Bool) :
    (more.foldl State.shiftIn s).HoldsMask out (bits ++ more) := by
  induction more generalizing s bits with
  | nil => simpa using h
  | cons m more ih => simpa using ih (h.shiftIn m)

/-- A deficit flush emits the packing of the pending bits, which completes that of all the bits (R116, R120). -/
theorem flush_maskOut (h : s.HoldsMask out bits) : (s.flush .deficit).maskOut = out ++ packAlphaMask bits := by
  have hlen := length_drop_groupedBits bits
  have hzero : s.cnt = 0#3 ↔ bits.length % 8 = 0 := by rw [← h.cnt]; exact (BitVec.toNat_inj (y := 0#3)).symm
  have hsplit := packAlphaMask_split bits []
  simp only [List.append_nil] at hsplit
  rw [State.flush_deficit_maskOut, h.maskOut, hsplit]
  split
  case isTrue hcnt =>
    rw [hzero.mp hcnt, List.length_eq_zero_iff] at hlen
    rw [hlen, packAlphaMask_nil, List.append_nil]
  case isFalse hcnt =>
    have hne : bits.drop (groupedBits bits.length) ≠ [] := fun hnil => by
      rw [hnil] at hlen
      exact hcnt (hzero.mpr hlen.symm)
    rw [packAlphaMask_short hne (by omega), packGroup_append_zeros h.acc (by omega), hlen, h.cnt,
      List.append_assoc]

end State.HoldsMask

/-- Settles O40: from an empty group at most seven bits stay pending, so `ACC` is their value. -/
theorem literalAccumulatorIsAccShiftedLeft : Obligations.LiteralAccumulatorIsAccShiftedLeft := by
  refine ⟨fun bits h => ?_, fun s bits hacc hcnt h => ?_⟩
  · have hlt := bitsValue_lt_256 h
    exact ⟨literalAcc_toNat h, by rw [literalAcc_toNat h]; omega, packGroup_toNat h⟩
  · obtain ⟨-, hcnt', hacc'⟩ := (State.HoldsMask.nil hacc hcnt).foldl_shiftIn bits
    have hnone : groupedBits bits.length = 0 := by rw [groupedBits]; omega
    rw [List.nil_append] at hcnt' hacc'
    rw [hcnt', hacc', hnone, List.drop_zero]
    exact ⟨Nat.mod_eq_of_lt (by omega), literalAcc_toNat (by omega)⟩

/-! ### What the pairs on PIX tell (R89, R123) -/

/-- The pair of a sample is the sentinel exactly when its mask bit is 0 (R89, R123). -/
theorem Sample.not_sentinel_eq_maskBit (p : Sample) :
    (!(p.pair.1 == 0xFF#8 && p.pair.2 == 0xFE#8)) = maskBit p.a := by
  rw [Sample.pair, quantizeRgb565, maskBit]
  cases isTransparent p.a with
  | true => rfl
  | false =>
    have hhi : hiByte (packedOf p.r p.g p.b) ≠ 0xFF#8 := fun heq => by
      have hmod := hiByte_toNat (packedOf p.r p.g p.b)
      rw [heq, BitVec.toNat_ofNat] at hmod
      omega
    simp [hhi]

/-- After whole pairs, one pair more tells one bit more. -/
theorem sentinelBits_append_pair (hi lo : Byte) : ∀ {l : List Byte}, l.length = 2 * (sentinelBits l).length →
    sentinelBits (l ++ [hi, lo]) = sentinelBits l ++ [!(hi == 0xFF#8 && lo == 0xFE#8)]
  | [], _ => rfl
  | [_], h => by simp [sentinelBits] at h
  | x :: y :: l, h => by
    have hl : l.length = 2 * (sentinelBits l).length := by
      simp only [sentinelBits, List.length_cons] at h; omega
    simp only [List.cons_append, sentinelBits, sentinelBits_append_pair hi lo hl]

/-- The PIX stream after a pixel tells its mask bit next (R123). -/
theorem State.sentinelBits_encodePixel {s : State} (p : Sample)
    (h : s.pixOut.length = 2 * (sentinelBits s.pixOut).length) :
    sentinelBits (s.encodePixel p).pixOut = sentinelBits s.pixOut ++ [maskBit p.a] := by
  rw [State.encodePixel_pixOut, sentinelBits_append_pair _ _ h, Sample.not_sentinel_eq_maskBit]

/-! ### The invariant of the block (R22, R23, R43, R45, R123, R188) -/

/-- The frame in progress is consistent when PIX holds whole pairs and the mask encoder holds the bits they tell. -/
theorem progressConsistent_iff (s : State) : ProgressConsistent s ↔
    s.pixOut.length = 2 * (sentinelBits s.pixOut).length ∧ s.HoldsMask [] (sentinelBits s.pixOut) :=
  ⟨fun ⟨hpairs, hmask, hcnt, hacc⟩ => ⟨hpairs, hmask, hcnt, hacc⟩,
    fun ⟨hpairs, hmask, hcnt, hacc⟩ => ⟨hpairs, hmask, hcnt, hacc⟩⟩

/-- The MASK half of a pixel holds the bits its shift-in holds (R140). -/
theorem State.HoldsMask.encodePixel {s : State} {out : List Byte} {bits : List Bool} (h : s.HoldsMask out bits)
    (p : Sample) : (s.encodePixel p).HoldsMask out (bits ++ [maskBit p.a]) := by
  obtain ⟨hacc, hcnt, hmask⟩ := s.encodePixel_mask p
  obtain ⟨hmask', hcnt', hacc'⟩ := h.shiftIn (maskBit p.a)
  exact ⟨hmask.trans hmask', (congrArg _ hcnt).trans hcnt', (congrArg _ hacc).trans hacc'⟩

/-- A frame that has not begun is consistent (R35). -/
theorem progressConsistent_of_atFrameStart {s : State} (h : AtFrameStart s) : ProgressConsistent s := by
  obtain ⟨hacc, hcnt, hpix, hmask⟩ := h
  have hholds := State.HoldsMask.nil hacc hcnt
  rw [hmask] at hholds
  rw [progressConsistent_iff, hpix]
  exact ⟨rfl, hholds⟩

/-- A pixel adds one pair to PIX and the bit it tells to the mask encoder (R123, R140). -/
theorem progressConsistent_encodePixel {s : State} (h : ProgressConsistent s) (p : Sample) :
    ProgressConsistent (s.encodePixel p) := by
  rw [progressConsistent_iff] at h ⊢
  obtain ⟨hpairs, hholds⟩ := h
  rw [State.sentinelBits_encodePixel p hpairs]
  refine ⟨?_, hholds.encodePixel p⟩
  simp only [State.encodePixel_pixOut, List.length_append, List.length_cons, List.length_nil]
  omega

/-- Closing a consistent frame completes a consistent one: flush emits the bits still pending (R45, R120, R141). -/
theorem frameConsistent_flush {s : State} (h : ProgressConsistent s) :
    FrameConsistent { pix := s.pixOut, mask := (s.flush .deficit).maskOut } := by
  rw [progressConsistent_iff] at h
  obtain ⟨hpairs, hholds⟩ := h
  exact ⟨hpairs, hholds.flush_maskOut⟩

/-- Consistency at a frame boundary is that of the completed frames. -/
theorem consistent_of_atFrameStart {s : State} (h : AtFrameStart s) (hframes : ∀ f ∈ s.frames, FrameConsistent f) :
    Consistent s :=
  ⟨progressConsistent_of_atFrameStart h, hframes⟩

/-- `PIX` keeps the block consistent (R123, R140). -/
theorem consistent_encodePixel {s : State} (h : Consistent s) (p : Sample) : Consistent (s.encodePixel p) := by
  obtain ⟨hprogress, hframes⟩ := h
  refine ⟨progressConsistent_encodePixel hprogress p, ?_⟩
  rw [State.encodePixel_frames]
  exact hframes

/-- `END` keeps the block consistent: the new frame is, and the next has not begun (R45, R141). -/
theorem consistent_closeFrame {s : State} (h : Consistent s) : Consistent (s.closeFrame hardwareConfig) := by
  obtain ⟨hprogress, hframes⟩ := h
  refine consistent_of_atFrameStart (s.atFrameStart_closeFrame _) ?_
  rw [State.closeFrame_frames, List.forall_mem_append, List.forall_mem_singleton]
  exact ⟨hframes, frameConsistent_flush hprogress⟩

/-- Settles O57: each command keeps the invariant, and a reset starts with no frame at all. -/
theorem everyStepKeepsTheInvariant : Obligations.EveryStepKeepsTheInvariant := by
  intro s t
  exact step_keeps (P := fun s => Consistent s) (fun _ _ h => h)
    (fun s => consistent_of_atFrameStart s.atFrameStart_applyReset (by simp))
    (fun _ p h => consistent_encodePixel h p) (fun _ h => consistent_closeFrame h)

/-- Settles O56: nothing has been emitted and no frame is complete. -/
theorem invariantHoldsAtReset : Obligations.InvariantHoldsAtReset :=
  consistent_of_atFrameStart atFrameStart_reset (by simp)

/-! ### Who writes which stream (R21, R32) -/

/-- `END` moves the PIX bytes into its frame and emits none (R51, R141). -/
theorem State.closeFrame_pixLog (s : State) (c : Config) : (s.closeFrame c).pixLog = s.pixLog := by
  simp [State.pixLog]

/-- Settles O37: waiting leaves the histories, `END` leaves the PIX log, `PIX` leaves DONE. -/
theorem streamsAreWrittenByTheirCommandsOnly : Obligations.StreamsAreWrittenByTheirCommandsOnly := by
  intro s t e rest hcmd hreset hresetOver hstep
  rw [step_cons hcmd] at hstep
  injection hstep with hstep
  subst hstep
  cases e with
  | reset => exact absurd rfl hreset
  | resetOver w => exact absurd rfl (hresetOver w)
  | sourceIdle => exact ⟨fun h => absurd rfl h, fun h => absurd rfl h, fun h => absurd rfl h⟩
  | sinkStall => exact ⟨fun h => absurd rfl h, fun h => absurd rfl h, fun h => absurd rfl h⟩
  | command w =>
    rw [State.afterInput]
    cases hw : decode w with
    | pix r g b a =>
      exact ⟨fun _ => ⟨w, r, g, b, a, rfl, hw⟩, fun _ => ⟨w, rfl⟩,
        fun h => absurd (State.doneStream_congr (State.encodePixel_frames _ _)) h⟩
    | endFrame =>
      exact ⟨fun h => absurd (State.closeFrame_pixLog _ _) h, fun _ => ⟨w, rfl⟩, fun _ => ⟨w, rfl, hw⟩⟩

/-- What a pixel appends to PIX is the pair of its sample (R21, R140). -/
theorem State.encodePixel_pixOut_drop (s : State) (p : Sample) :
    (s.encodePixel p).pixOut.drop s.pixOut.length = p.bytes := by
  rw [State.encodePixel_pixOut, List.drop_left, Sample.bytes]

/-- Settles O35: the appended bytes are those of the sample in every state. -/
theorem pixBytesDependOnTheSampleOnly : Obligations.PixBytesDependOnTheSampleOnly := by
  intro r g b a s s' t t' h h'
  rw [exec_pix] at h h'
  injection h with h
  injection h' with h'
  subst h h'
  rw [State.encodePixel_pixOut_drop, State.encodePixel_pixOut_drop]
  exact ⟨rfl, rfl⟩

/-! ### Reset values (R34, R35) -/

/-- Settles O1: the reset state is R34's table. -/
theorem resetStateHasTheTabulatedValues : Obligations.ResetStateHasTheTabulatedValues :=
  ⟨State.reset_acc, State.reset_cnt, State.reset_pixOut, State.reset_maskOut, State.reset_frames, rfl⟩

/-- Settles O33: `END` leaves a frame boundary, as the reset state is one, and one frame more. -/
theorem endRestoresTheResetRegisters : Obligations.EndRestoresTheResetRegisters := by
  intro s
  obtain ⟨hacc, hcnt, hpix, hmask⟩ := s.atFrameStart_closeFrame hardwareConfig
  exact ⟨_, exec_endFrame s, hacc, hcnt, hpix, hmask, _, s.closeFrame_frames hardwareConfig⟩

end Sys2Proof.Machine

/-! Proofs of the statements of `20_memory.md`: the layout of the two buffers, what a command adds to the streams, and
what the sinks may see of it. -/

namespace Sys2Proof.Machine

/-! ### The length of a packing, and its pad bits (R45, R46, R47) -/

/-- One byte per group of the padded sequence (R114, R116, R117). -/
theorem packLiteral_length (mode : PadMode) (bits : List Bool) :
    (packLiteral mode bits).length = ceilDiv (bits.length + padCount mode bits.length) 8 := by
  rw [packLiteral, List.length_map, List.length_range, padded, List.length_append, List.length_replicate]

/-- One byte per eight bits or part of them (R45). -/
theorem packAlphaMask_length (bits : List Bool) : (packAlphaMask bits).length = (bits.length + 7) / 8 := by
  rw [packAlphaMask_eq_packLiteral, packLiteral_length, padCount, ceilDiv]
  omega

/-- A padded sequence needs no more padding (R118, R119). -/
theorem padded_deficit_padded (bits : List Bool) :
    padded .deficit (padded .deficit bits) = padded .deficit bits := by
  have hnone : padCount .deficit (padded .deficit bits).length = 0 := by
    simp only [padded, padCount, List.length_append, List.length_replicate]; omega
  rw [padded, hnone, List.replicate_zero, List.append_nil]

/-- Pad bits written out pack like pad bits left to the encoder (R46, R124). -/
theorem packAlphaMask_padded (bits : List Bool) : packAlphaMask (padded .deficit bits) = packAlphaMask bits := by
  simp only [packAlphaMask_eq_packLiteral, packLiteral, padded_deficit_padded]

/-- Settles O45: the number of pad bits is `N mod 8`, and groups of eight are counted upwards. -/
theorem remainderPaddingLength : Obligations.RemainderPaddingLength := by
  intro bits
  rw [packLiteral_length, padCount, ceilDiv, Nat.add_sub_assoc (by decide)]

/-- Settles O46: padding twice is padding once; the seven transparent pixels are the pad bits of the nine opaque
ones. -/
theorem paddingIsIndistinguishableFromTransparency : Obligations.PaddingIsIndistinguishableFromTransparency := by
  have hnine : packAlphaMask (List.replicate 9 true) = [0xFF#8, 0x80#8] := by decide
  exact ⟨packAlphaMask_padded, hnine, (packAlphaMask_padded (List.replicate 9 true)).trans hnine⟩

/-! ### The bits of a packing (R44, R115, R121) -/

/-- Bit `k` of the number is the `k`-th bit from the end of the sequence (R22). -/
theorem bitsValue_testBit (bits : List Bool) (k : Nat) :
    (bitsValue bits).testBit k = bits.reverse.getD k false := by
  induction bits using List.reverseRecOn generalizing k with
  | nil => simp [bitsValue]
  | append_singleton bits m ih =>
    have hdiv : (2 * bitsValue bits + m.toNat) / 2 = bitsValue bits := by have := m.toNat_lt; omega
    have hmod : (2 * bitsValue bits + m.toNat) % 2 = m.toNat := by have := m.toNat_lt; omega
    rw [bitsValue_concat, List.reverse_append, List.reverse_singleton, List.singleton_append]
    cases k with
    | zero => rw [Nat.testBit_zero, hmod, List.getD_cons_zero]; cases m <;> rfl
    | succ k => rw [Nat.testBit_succ, hdiv, ih, List.getD_cons_succ]

/-- The first bit of a full group is the most significant of its byte (R115). -/
theorem packGroup_getLsbD {g : List Bool} (h : g.length = 8) {j : Nat} (hj : j < 8) :
    (packGroup g).getLsbD (7 - j) = g.getD j false := by
  rw [BitVec.getLsbD, packGroup_toNat h.le, bitsValue_testBit, List.getD_reverse _ (by omega)]
  congr 1
  omega

/-- Bit `j` of a group is bit `8 q + j` of the sequence. -/
theorem groupAt_getD (bits : List Bool) (q : Nat) {j : Nat} (hj : j < 8) :
    (groupAt bits q).getD j false = bits.getD (8 * q + j) false := by
  simp [groupAt, List.getD_eq_getElem?_getD, hj]

/-- Past its end a sequence is padded with 0 bits (R46, R118). -/
theorem padded_getD (mode : PadMode) (bits : List Bool) (i : Nat) :
    (padded mode bits).getD i false = bits.getD i false := by
  by_cases h : i < bits.length
  · rw [padded, List.getD_append _ _ _ _ h]
  · rw [padded, List.getD_append_right _ _ _ _ (by omega), List.getD_eq_getElem?_getD,
      List.getElem?_getD_replicate_default_eq, List.getD_eq_default _ _ (by omega)]

/-- Bit `7 - j` of byte `q` of a packing is bit `8 q + j` of the sequence, 0 past its end (R44, R121). -/
theorem packAlphaMask_getLsbD {bits : List Bool} {q j : Nat} {byte : Byte} (h : (packAlphaMask bits)[q]? = some byte)
    (hj : j < 8) : byte.getLsbD (7 - j) = bits.getD (8 * q + j) false := by
  obtain ⟨hq, hbyte⟩ := List.getElem?_eq_some_iff.mp h
  rw [packAlphaMask_length] at hq
  have hgroup : (groupAt (padded .deficit bits) q).length = 8 := by
    simp only [groupAt, padded, padCount, List.length_take, List.length_drop, List.length_append, List.length_replicate]
    omega
  rw [← hbyte]
  simp only [packAlphaMask_eq_packLiteral, packLiteral, List.getElem_map, List.getElem_range]
  rw [packGroup_getLsbD hgroup hj, groupAt_getD _ _ hj, padded_getD]

/-! ### A frame's buffers (R41, R43, R57, R170) -/

/-- Two bytes per pixel (R43). -/
theorem pixelBuffer_length (samples : List Sample) : (pixelBuffer samples).length = 2 * samples.length := by
  simp [pixelBuffer, Sample.bytes, List.length_flatMap, Nat.mul_comm]

/-- The pair of pixel `i` stands at offsets `2 i` and `2 i + 1` (R41). -/
theorem pixelBuffer_getElem? {samples : List Sample} {i : Nat} {p : Sample} (h : samples[i]? = some p) :
    (pixelBuffer samples)[2 * i]? = some p.pair.1 ∧ (pixelBuffer samples)[2 * i + 1]? = some p.pair.2 := by
  induction samples generalizing i with
  | nil => simp at h
  | cons first samples ih =>
    have hcons : pixelBuffer (first :: samples) = first.pair.1 :: first.pair.2 :: pixelBuffer samples := rfl
    rw [hcons]
    cases i with
    | zero => cases h; exact ⟨rfl, rfl⟩
    | succ i => exact ih h

/-- The mask bit of pixel `i`, 0 when there is no such pixel (R110, R111). -/
theorem maskBits_getD (samples : List Sample) (i : Nat) :
    (maskBits samples).getD i false = samples[i]?.elim false fun p => decide (p.a ≠ 0#8) := by
  rw [maskBits, List.getD_eq_getElem?_getD, List.getElem?_map]
  cases samples[i]? with
  | none => rfl
  | some p => exact maskBit_eq p.a

/-- Settles O55: pairs are concatenated, and full groups of mask bits are packed on their own. -/
theorem splittingAtMultiplesOfEightIsSound : Obligations.SplittingAtMultiplesOfEightIsSound := by
  intro left right h
  refine ⟨List.flatMap_append, ?_⟩
  simp only [encodeFrame, maskBits, List.map_append]
  exact packAlphaMask_append _ (by rwa [List.length_map])

/-! ### The commands of a frame (R142) -/

/-- The frame `END` completes on this hardware (R9, R141). -/
theorem State.closeFrame_hardware_frames (s : State) : (s.closeFrame hardwareConfig).frames =
    s.frames ++ [{ pix := s.pixOut, mask := (s.flush .deficit).maskOut }] :=
  s.closeFrame_frames hardwareConfig

/-- The commands of samples, before any others, encode their pixels one by one (R54, R140, R143). -/
theorem execAll_pixels (samples : List Sample) (rest : List Instr) (s : State) :
    execAll (samples.map Sample.toInstr ++ rest) s = execAll rest (samples.foldl State.encodePixel s) := by
  induction samples generalizing s with
  | nil => rfl
  | cons p samples ih => exact ih (s.encodePixel p)

/-- A frame's commands encode its pixels and close the frame (R142). -/
theorem execAll_frameInstrs (samples : List Sample) (s : State) :
    execAll (frameInstrs samples) s = .next ((samples.foldl State.encodePixel s).closeFrame hardwareConfig) :=
  execAll_pixels samples [.endFrame] s

/-- The pixels of a frame leave their pairs on PIX, in order (R41, R42). -/
theorem State.foldl_encodePixel_pixOut (s : State) (samples : List Sample) :
    (samples.foldl State.encodePixel s).pixOut = s.pixOut ++ pixelBuffer samples := by
  induction samples generalizing s with
  | nil => simp [pixelBuffer]
  | cons p samples ih =>
    rw [List.foldl_cons, ih, State.encodePixel_pixOut, List.append_assoc]
    rfl

/-- Pixels complete no frame (R51). -/
theorem State.foldl_encodePixel_frames (s : State) (samples : List Sample) :
    (samples.foldl State.encodePixel s).frames = s.frames := by
  induction samples generalizing s with
  | nil => rfl
  | cons p samples ih => rw [List.foldl_cons, ih, State.encodePixel_frames]

/-- The mask encoder holds the mask bits of the pixels it has seen (R111, R140). -/
theorem State.HoldsMask.foldl_encodePixel {s : State} {out : List Byte} {bits : List Bool} (h : s.HoldsMask out bits)
    (samples : List Sample) : (samples.foldl State.encodePixel s).HoldsMask out (bits ++ maskBits samples) := by
  induction samples generalizing s bits with
  | nil => simpa [maskBits] using h
  | cons p samples ih => simpa [maskBits] using ih (h.encodePixel p)

/-- From a frame boundary the commands of a frame yield its encoding (R142). -/
theorem frameYields_encodeFrame {s : State} (h : AtFrameStart s) (samples : List Sample) :
    FrameYields s samples (encodeFrame samples) := by
  obtain ⟨hacc, hcnt, hpix, hmask⟩ := h
  have hholds := (State.HoldsMask.nil hacc hcnt).foldl_encodePixel samples
  refine ⟨_, execAll_frameInstrs samples s, ?_⟩
  rw [State.closeFrame_hardware_frames, State.foldl_encodePixel_frames, State.foldl_encodePixel_pixOut, hpix,
    hholds.flush_maskOut, hmask]
  rfl

/-- Settles O51: the frame is `encode_frame` of the samples, whose pixel buffer is the pairs in order. -/
theorem pixelBufferLayout : Obligations.PixelBufferLayout := by
  intro s samples hs
  exact ⟨_, frameYields_encodeFrame hs samples, pixelBuffer_length samples, fun i p => pixelBuffer_getElem?⟩

/-- Settles O52: the frame is `encode_frame` of the samples, whose mask buffer packs their mask bits. -/
theorem maskBufferLayout : Obligations.MaskBufferLayout := by
  intro s samples hs
  refine ⟨_, frameYields_encodeFrame hs samples, ?length, fun q j byte hbyte hj => ?bit⟩
  case length => rw [encodeFrame, packAlphaMask_length, maskBits, List.length_map]
  case bit =>
    rw [packAlphaMask_getLsbD hbyte hj, maskBits_getD]
    cases samples[8 * q + j]? <;> rfl

/-! ### What a command adds to the streams (R32, R49, R140, R141) -/

/-- The bytes a command appends to PIX: the pair of its sample (R140, R141). -/
def newPix : Instr → List Byte
  | .pix r g b a => Sample.bytes { r := r, g := g, b := b, a := a }
  | .endFrame => []

/-- The bytes a command appends to MASK: that of the group it completes or pads (R112, R116). -/
def newMask (acc : Byte) (cnt : BitVec 3) : Instr → List Byte
  | .pix _ _ _ a => if cnt = 7#3 then [shiftedIn acc (maskBit a)] else []
  | .endFrame => if cnt = 0#3 then [] else [acc <<< (8 - cnt.toNat)]

/-- The tokens a command appends to DONE (R51). -/
def newDone : Instr → List DoneToken
  | .pix _ _ _ _ => []
  | .endFrame => [.token]

/-- Completing a frame appends one token (R51). -/
theorem State.doneStream_of_frames_append {s t : State} {f : Frame} (h : t.frames = s.frames ++ [f]) :
    t.doneStream = s.doneStream ++ [.token] := by
  rw [State.doneStream, h, List.map_append, State.doneStream]
  rfl

/-- A command appends its pair to the PIX log (R49, R140). -/
theorem State.afterInstr_pixLog (s : State) (i : Instr) : (s.afterInstr i).pixLog = s.pixLog ++ newPix i := by
  cases i with
  | pix r g b a => simp [State.afterInstr, State.pixLog, newPix, Sample.bytes]
  | endFrame => simp [State.afterInstr, State.closeFrame_pixLog, newPix]

/-- A command appends to the MASK log what it completes or pads (R49, R112, R116). -/
theorem State.afterInstr_maskLog (s : State) (i : Instr) :
    (s.afterInstr i).maskLog = s.maskLog ++ newMask s.acc s.cnt i := by
  cases i with
  | pix r g b a =>
    rw [State.afterInstr, State.maskLog, State.encodePixel_maskOut, State.encodePixel_frames, newMask, State.maskLog]
    split <;> simp
  | endFrame =>
    rw [State.afterInstr, State.maskLog, State.closeFrame_hardware_frames, State.closeFrame_maskOut,
      State.flush_deficit_maskOut, newMask, State.maskLog]
    split <;> simp

/-- `END` alone appends to DONE (R51). -/
theorem State.afterInstr_doneStream (s : State) (i : Instr) :
    (s.afterInstr i).doneStream = s.doneStream ++ newDone i := by
  cases i with
  | pix r g b a => rw [newDone, List.append_nil]; exact State.doneStream_congr (s.encodePixel_frames _)
  | endFrame => exact State.doneStream_of_frames_append s.closeFrame_hardware_frames

/-- Completed frames stay (R49, R51). -/
theorem State.frames_prefix_afterInstr (s : State) (i : Instr) : s.frames <+: (s.afterInstr i).frames := by
  cases i with
  | pix r g b a => rw [State.afterInstr, State.encodePixel_frames]
  | endFrame => rw [State.afterInstr, State.closeFrame_frames]; exact List.prefix_append _ _

/-- What a command leaves in the registers is decided by what it found there (R112, R140, R141). -/
theorem State.afterInstr_regs_congr {s s' : State} (hacc : s.acc = s'.acc) (hcnt : s.cnt = s'.cnt) (i : Instr) :
    (s.afterInstr i).acc = (s'.afterInstr i).acc ∧ (s.afterInstr i).cnt = (s'.afterInstr i).cnt := by
  cases i with
  | pix r g b a =>
    obtain ⟨ha, hc, -⟩ := s.encodePixel_mask { r := r, g := g, b := b, a := a }
    obtain ⟨ha', hc', -⟩ := s'.encodePixel_mask { r := r, g := g, b := b, a := a }
    rw [State.afterInstr, State.afterInstr, ha, ha', hc, hc', State.shiftIn_acc, State.shiftIn_acc, hacc, hcnt]
    refine ⟨rfl, BitVec.eq_of_toNat_eq ?_⟩
    rw [State.shiftIn_cnt_toNat, State.shiftIn_cnt_toNat, hcnt]
  | endFrame => exact ⟨rfl, rfl⟩

/-- Settles O38: each command's new bytes and tokens are a function of it, `ACC` and `CNT`, appended to the logs. -/
theorem streamsAreAppendOnly : Obligations.StreamsAreAppendOnly := by
  refine ⟨fun s t hreset hresetOver hstep => ?appendOnly, fun i s s' hacc hcnt => ?writeOnly⟩
  case appendOnly =>
    obtain ⟨-, rfl⟩ | ⟨e, rest, hcmd, rfl⟩ := step_cases hstep
    · exact ⟨List.prefix_rfl, List.prefix_rfl, List.prefix_rfl⟩
    rw [hcmd, List.head?_cons] at hreset hresetOver
    cases e with
    | reset => exact absurd rfl hreset
    | resetOver w => exact absurd rfl (hresetOver w)
    | sourceIdle => exact ⟨List.prefix_rfl, List.prefix_rfl, List.prefix_rfl⟩
    | sinkStall => exact ⟨List.prefix_rfl, List.prefix_rfl, List.prefix_rfl⟩
    | command w =>
      rw [State.afterInput, State.afterInstr_pixLog, State.afterInstr_maskLog]
      exact ⟨List.prefix_append _ _, List.prefix_append _ _,
        State.frames_prefix_afterInstr { s with cmd := rest } _⟩
  case writeOnly =>
    obtain ⟨hacc', hcnt'⟩ := State.afterInstr_regs_congr hacc hcnt i
    refine ⟨_, _, newPix i, newMask s.acc s.cnt i, newDone i, exec_eq_next i s, exec_eq_next i s', hacc', hcnt',
      s.afterInstr_pixLog i, s'.afterInstr_pixLog i, s.afterInstr_maskLog i, ?_, s.afterInstr_doneStream i,
      s'.afterInstr_doneStream i⟩
    rw [hacc, hcnt, s'.afterInstr_maskLog i]

/-- `CNT = 0` as a number. -/
theorem cnt_toNat_eq_zero (cnt : BitVec 3) : cnt.toNat = 0 ↔ cnt = 0#3 :=
  BitVec.toNat_inj (y := 0#3)

/-- Settles O32: flush appends one byte at most, at the end of MASK, and the two streams become the new frame. -/
theorem endFrameCondition : Obligations.EndFrameCondition := by
  intro s
  simp only [ne_eq, cnt_toNat_eq_zero]
  have hframes := s.closeFrame_hardware_frames
  refine ⟨_, _, exec_endFrame s, hframes, rfl, fun o ho => ?mask, ?length, s.closeFrame_pixLog _,
    State.doneStream_of_frames_append hframes, s.closeFrame_cmd _⟩
  case mask =>
    rw [State.flush_deficit_maskOut]
    split
    case isTrue => rfl
    case isFalse hcnt => exact maskByte_emitMask_other s _ fun hlen => ho ⟨hcnt, hlen⟩
  case length =>
    rw [State.flush_deficit_maskOut, apply_ite List.length, List.length_append, List.length_singleton]

/-! ### Legal observations, piece by piece (R51, R55, R56) -/

/-- The transfers of completed frames, each closed by its DONE token, and then those since the last token (R51). -/
def joinAtDone (pieces : List (List Delivered)) (last : List Delivered) : List Delivered :=
  pieces.flatMap (fun piece => piece ++ [.done]) ++ last

/-- Joining a first piece more puts it and its token in front. -/
theorem joinAtDone_cons (piece : List Delivered) (pieces : List (List Delivered)) (last : List Delivered) :
    joinAtDone (piece :: pieces) last = piece ++ .done :: joinAtDone pieces last := by
  simp [joinAtDone]

/-- Transfers without a token lengthen the last piece. -/
theorem joinAtDone_append (pieces : List (List Delivered)) (last new : List Delivered) :
    joinAtDone pieces last ++ new = joinAtDone pieces (last ++ new) :=
  List.append_assoc _ _ _

/-- Behind a first token the pieces go on, the one before it lengthened. -/
theorem joinAtDone_append_joinAtDone_cons (pieces pieces' : List (List Delivered))
    (last piece last' : List Delivered) :
    joinAtDone pieces last ++ joinAtDone (piece :: pieces') last' =
      joinAtDone (pieces ++ (last ++ piece) :: pieces') last' := by
  simp [joinAtDone]

/-- Cutting joined pieces gives them back (R51). -/
theorem cutAtDone_joinAtDone {pieces : List (List Delivered)} {last : List Delivered}
    (hpieces : ∀ piece ∈ pieces, Delivered.done ∉ piece) (hlast : Delivered.done ∉ last) :
    cutAtDone (joinAtDone pieces last) = (pieces, last) := by
  induction pieces with
  | nil => exact cutAtDone_of_no_done hlast
  | cons piece pieces ih =>
    obtain ⟨hpiece, hpieces⟩ := List.forall_mem_cons.mp hpieces
    rw [joinAtDone_cons, cutAtDone_piece _ hpiece, ih hpieces]

/-- Every sequence of transfers is pieces without tokens, joined. -/
theorem exists_eq_joinAtDone (obs : List Delivered) : ∃ pieces last,
    (∀ piece ∈ pieces, Delivered.done ∉ piece) ∧ Delivered.done ∉ last ∧ obs = joinAtDone pieces last := by
  induction obs with
  | nil => exact ⟨[], [], by simp, by simp, rfl⟩
  | cons d obs ih =>
    obtain ⟨pieces, last, hpieces, hlast, rfl⟩ := ih
    by_cases hd : d = .done
    · exact ⟨[] :: pieces, last, by simpa using hpieces, hlast, by rw [hd, joinAtDone_cons, List.nil_append]⟩
    · cases pieces with
      | nil => exact ⟨[], d :: last, hpieces, by simp [Ne.symm hd, hlast], rfl⟩
      | cons piece pieces =>
        rw [List.forall_mem_cons] at hpieces
        exact ⟨(d :: piece) :: pieces, last, by simpa [Ne.symm hd] using hpieces, hlast, rfl⟩

/-- Joined pieces are legal when they deliver the frames and the rest the frame in progress (R51, R54, R55). -/
theorem State.admits_joinAtDone (s : State) {pieces : List (List Delivered)} {last : List Delivered}
    (hpieces : ∀ piece ∈ pieces, Delivered.done ∉ piece) (hlast : Delivered.done ∉ last) :
    s.admits (joinAtDone pieces last) = true ↔
      pieces.map deliveredFrame = s.frames ∧ pixOf last = s.pixOut ∧ maskOf last = s.maskOut := by
  rw [State.admits_iff, cutAtDone_joinAtDone hpieces hlast]

/-- A piece delivers a frame when it carries the bytes of both buffers (R51, R54). -/
theorem deliveredFrame_eq_iff (piece : List Delivered) (f : Frame) :
    deliveredFrame piece = f ↔ pixOf piece = f.pix ∧ maskOf piece = f.mask := by
  cases f
  simp [deliveredFrame]

/-- The pixel sink takes the pieces' bytes one piece after the other (R54). -/
theorem pixOf_joinAtDone (pieces : List (List Delivered)) (last : List Delivered) :
    pixOf (joinAtDone pieces last) = ((pieces.map deliveredFrame).map Frame.pix).flatten ++ pixOf last := by
  induction pieces with
  | nil => rfl
  | cons piece pieces ih => simp [joinAtDone_cons, ih, deliveredFrame]

/-- The mask sink takes the pieces' bytes one piece after the other (R54). -/
theorem maskOf_joinAtDone (pieces : List (List Delivered)) (last : List Delivered) :
    maskOf (joinAtDone pieces last) = ((pieces.map deliveredFrame).map Frame.mask).flatten ++ maskOf last := by
  induction pieces with
  | nil => rfl
  | cons piece pieces ih => simp [joinAtDone_cons, ih, deliveredFrame]

/-- One token per piece (R51). -/
theorem count_done_joinAtDone {pieces : List (List Delivered)} {last : List Delivered}
    (hpieces : ∀ piece ∈ pieces, Delivered.done ∉ piece) (hlast : Delivered.done ∉ last) :
    (joinAtDone pieces last).count .done = pieces.length := by
  induction pieces with
  | nil => exact List.count_eq_zero_of_not_mem hlast
  | cons piece pieces ih =>
    obtain ⟨hpiece, hpieces⟩ := List.forall_mem_cons.mp hpieces
    rw [joinAtDone_cons, List.count_append, List.count_cons_self, ih hpieces, List.count_eq_zero_of_not_mem hpiece,
      Nat.zero_add, List.length_cons]

/-- A legal observation carries both logs and one token per frame (R51, R54). -/
theorem State.logs_of_admits {s : State} {obs : List Delivered} (h : s.admits obs = true) :
    pixOf obs = s.pixLog ∧ maskOf obs = s.maskLog ∧ obs.count .done = s.doneStream.length := by
  obtain ⟨pieces, last, hpieces, hlast, rfl⟩ := exists_eq_joinAtDone obs
  obtain ⟨hframes, hpix, hmask⟩ := (s.admits_joinAtDone hpieces hlast).mp h
  rw [pixOf_joinAtDone, maskOf_joinAtDone, count_done_joinAtDone hpieces hlast, hframes, hpix, hmask,
    State.doneStream, List.length_map, ← hframes, List.length_map]
  exact ⟨hframes ▸ rfl, hframes ▸ rfl, rfl⟩

/-- New bytes of the frame in progress, in any order that keeps each stream's, extend a legal observation (R55). -/
theorem State.admits_append {s t : State} {obs new : List Delivered} (h : s.admits obs = true)
    (hframes : t.frames = s.frames) (hnew : Delivered.done ∉ new) (hpix : s.pixOut ++ pixOf new = t.pixOut)
    (hmask : s.maskOut ++ maskOf new = t.maskOut) : t.admits (obs ++ new) = true := by
  obtain ⟨pieces, last, hpieces, hlast, rfl⟩ := exists_eq_joinAtDone obs
  obtain ⟨hframes', hpix', hmask'⟩ := (s.admits_joinAtDone hpieces hlast).mp h
  rw [joinAtDone_append, State.admits_joinAtDone t hpieces (by simp [hlast, hnew])]
  exact ⟨hframes'.trans hframes.symm, by rw [pixOf_append, hpix', hpix], by rw [maskOf_append, hmask', hmask]⟩

/-- A token closes a legal observation when all bytes of its frame came before it (R56). -/
theorem State.admits_append_done_iff {s t : State} {f : Frame} {obs new : List Delivered} (h : s.admits obs = true)
    (hpixOut : t.pixOut = []) (hmaskOut : t.maskOut = []) (hframes : t.frames = s.frames ++ [f])
    (hnew : Delivered.done ∉ new) :
    t.admits (obs ++ new ++ [.done]) = true ↔ s.pixOut ++ pixOf new = f.pix ∧ s.maskOut ++ maskOf new = f.mask := by
  obtain ⟨pieces, last, hpieces, hlast, rfl⟩ := exists_eq_joinAtDone obs
  obtain ⟨hframes', hpix, hmask⟩ := (s.admits_joinAtDone hpieces hlast).mp h
  have hjoin : joinAtDone pieces last ++ new ++ [.done] = joinAtDone (pieces ++ [last ++ new]) [] := by
    simp [joinAtDone]
  have hall : ∀ piece ∈ pieces ++ [last ++ new], Delivered.done ∉ piece := by
    rw [List.forall_mem_append, List.forall_mem_singleton]
    exact ⟨hpieces, by simp [hlast, hnew]⟩
  rw [hjoin, State.admits_joinAtDone t hall (by simp), hframes, List.map_append, hframes', hpixOut, hmaskOut]
  simp [deliveredFrame_eq_iff, hpix, hmask]

/-- Pieces deliver the frames when each delivers its own. -/
theorem map_deliveredFrame_eq_iff (pieces : List (List Delivered)) (frames : List Frame) :
    pieces.map deliveredFrame = frames ↔ pieces.length = frames.length ∧
      ∀ (k : Nat) (piece : List Delivered) (f : Frame), pieces[k]? = some piece → frames[k]? = some f →
        pixOf piece = f.pix ∧ maskOf piece = f.mask := by
  constructor
  · rintro rfl
    refine ⟨(List.length_map _).symm, fun k piece f hpiece hf => (deliveredFrame_eq_iff piece f).mp ?_⟩
    rw [List.getElem?_map, hpiece] at hf
    exact Option.some.inj hf
  · rintro ⟨hlength, hall⟩
    refine List.ext_getElem (by rw [List.length_map, hlength]) fun k hk hk' => ?_
    rw [List.getElem_map, deliveredFrame_eq_iff]
    exact hall k _ _ (List.getElem?_eq_getElem _) (List.getElem?_eq_getElem _)

/-- A stretch without tokens may be replaced by one with the same bytes on each stream (R55). -/
theorem State.admits_congr_stretch (s : State) (before after : List Delivered) {new new' : List Delivered}
    (hnew : Delivered.done ∉ new) (hnew' : Delivered.done ∉ new') (hpix : pixOf new = pixOf new')
    (hmask : maskOf new = maskOf new') : s.admits (before ++ new ++ after) = s.admits (before ++ new' ++ after) := by
  obtain ⟨pieces, last, hpieces, hlast, rfl⟩ := exists_eq_joinAtDone before
  obtain ⟨pieces', last', hpieces', hlast', rfl⟩ := exists_eq_joinAtDone after
  rw [Bool.eq_iff_iff]
  cases pieces' with
  | nil =>
    have hjoin (x : List Delivered) :
        joinAtDone pieces last ++ x ++ joinAtDone [] last' = joinAtDone pieces (last ++ x ++ last') := by
      simp [joinAtDone]
    rw [hjoin, hjoin, State.admits_joinAtDone s hpieces (by simp [hlast, hnew, hlast']),
      State.admits_joinAtDone s hpieces (by simp [hlast, hnew', hlast'])]
    simp [hpix, hmask]
  | cons piece pieces' =>
    obtain ⟨hpiece, hpieces'⟩ := List.forall_mem_cons.mp hpieces'
    have hall {x : List Delivered} (hx : Delivered.done ∉ x) :
        ∀ p ∈ pieces ++ (last ++ x ++ piece) :: pieces', Delivered.done ∉ p := by
      rw [List.forall_mem_append, List.forall_mem_cons]
      exact ⟨hpieces, by simp [hlast, hx, hpiece], hpieces'⟩
    rw [joinAtDone_append, joinAtDone_append_joinAtDone_cons, joinAtDone_append, joinAtDone_append_joinAtDone_cons,
      State.admits_joinAtDone s (hall hnew) hlast', State.admits_joinAtDone s (hall hnew') hlast']
    simp [deliveredFrame, hpix, hmask]

/-- Settles O39: every sequence of transfers is pieces joined, and `admits` reads each piece stream by stream. -/
theorem sinksSeeAnyInterleavingCutAtDone : Obligations.SinksSeeAnyInterleavingCutAtDone := by
  refine ⟨rfl, fun _ _ => State.logs_of_admits, ?pixel, ?endFrame, ?pieces, ?swap⟩
  case pixel =>
    intro r g b a s t obs new h hexec
    rw [exec_pix] at hexec
    cases hexec
    exact State.admits_append h (s.encodePixel_frames _)
  case endFrame =>
    intro s t f obs new h hexec hframes hnew
    rw [exec_endFrame] at hexec
    cases hexec
    have hf := State.closeFrame_hardware_frames s
    rw [hframes, List.append_cancel_left_eq, List.singleton_inj] at hf
    rw [State.admits_append_done_iff h rfl rfl hframes hnew, hf, List.append_right_eq_self]
  case pieces =>
    intro s pieces last hpieces hlast
    rw [← and_assoc, ← map_deliveredFrame_eq_iff]
    exact s.admits_joinAtDone hpieces hlast
  case swap =>
    intro s before after v w
    exact s.admits_congr_stretch before after (by simp) (by simp) rfl rfl

end Sys2Proof.Machine

/-! Proofs of the statements of `30_encoding.md`: the command word, its lines, and the text of its disassembly. -/

namespace Sys2Proof

/-! ### The command word (R60 to R63) -/

/-- `op = 1`: the decoder does not look at the payload (R63). -/
theorem decode_of_opBit {w : CmdWord} (h : w.getLsbD 32 = true) : decode w = .endFrame := by
  rw [decode_eq_ite, if_pos h]

/-- `op = 0`: the decoder reads the four fields (R60). -/
theorem decode_of_not_opBit {w : CmdWord} (h : w.getLsbD 32 = false) :
    decode w = .pix (byteField 24 w) (byteField 16 w) (byteField 8 w) (byteField 0 w) := by
  rw [decode_eq_ite, if_neg (Bool.eq_false_iff.mp h)]

/-- A word with `op = 0` is the sum of its four fields in their places (R60). -/
theorem toNat_eq_sum_byteFields {w : CmdWord} (h : w.getLsbD 32 = false) :
    w.toNat = 2 ^ 24 * (byteField 24 w).toNat + 2 ^ 16 * (byteField 16 w).toNat + 2 ^ 8 * (byteField 8 w).toNat +
      (byteField 0 w).toNat := by
  rw [opBit_eq, decide_eq_false_iff_not] at h
  simp only [byteField_toNat]
  omega

/-- The word of a `PIX` command has `op = 0` (R60). -/
theorem getLsbD_encode_pix (r g b a : Byte) : (encode (.pix r g b a)).getLsbD 32 = false := by
  have hrow : rowCovers pixRow (encode (.pix r g b a)) = true := beq_iff_eq.mpr (Laws.TableRow.pix r g b a)
  rwa [rowCovers_pixRow, Bool.not_eq_true'] at hrow

/-- The fields of an encoded `PIX` are its operands (R60, R70). -/
theorem decode_encode_pix (r g b a : Byte) : decode (encode (.pix r g b a)) = .pix r g b a := by
  have hr := r.isLt
  have hg := g.isLt
  have hb := b.isLt
  have ha := a.isLt
  rw [decode_of_not_opBit (getLsbD_encode_pix r g b a)]
  congr 1 <;>
  · apply BitVec.eq_of_toNat_eq
    rw [byteField_toNat, encode_pix_toNat]
    omega

/-- The decoder is a left inverse of the encoder (R62, R70). -/
theorem decode_encode (i : Instr) : decode (encode i) = i := by
  cases i with
  | pix r g b a => exact decode_encode_pix r g b a
  | endFrame => exact decode_end_word

/-- Settles O12: the decoder is a left inverse of the encoder, which is therefore injective. -/
theorem decodeUndoesEncode : Obligations.DecodeUndoesEncode := by
  intro i
  refine ⟨by cases i <;> rfl, decode_encode i, fun i' h => ?_⟩
  rw [← decode_encode i, h, decode_encode]

/-- The encoder undoes the decoder on a word with `op = 0` (R60, R72). -/
theorem encode_decode_of_not_opBit {w : CmdWord} (h : w.getLsbD 32 = false) : encode (decode w) = w := by
  have hsum := toNat_eq_sum_byteFields h
  apply BitVec.eq_of_toNat_eq
  rw [decode_of_not_opBit h, encode_pix_toNat]
  omega

/-- Settles O8: the opcode bit says on which side of `2 ^ 32` the word lies. -/
theorem decodeReadsTheFields : Obligations.DecodeReadsTheFields := by
  intro w
  have hop := opBit_eq w
  cases hbit : w.getLsbD 32 with
  | false =>
    rw [hbit, eq_comm, decide_eq_false_iff_not, Nat.not_le] at hop
    exact .inl ⟨hop, _, _, _, _, decode_of_not_opBit hbit, toNat_eq_sum_byteFields hbit⟩
  | true =>
    rw [hbit, eq_comm, decide_eq_true_eq] at hop
    exact .inr ⟨hop, decode_of_opBit hbit⟩

theorem Instr.opRow_mem_opRows (i : Instr) : i.opRow ∈ opRows := by
  cases i <;> simp [Instr.opRow, opRows]

/-- A row of the map covers a word exactly when it is the row of the word's command (R62). -/
theorem rowCovers_iff_eq_opRow {row : OpRow} (hrow : row ∈ opRows) (w : CmdWord) :
    rowCovers row w = true ↔ row = (decode w).opRow := by
  have hne : pixRow ≠ endRow := by decide
  obtain rfl | rfl : row = pixRow ∨ row = endRow := by simpa [opRows] using hrow
  · rw [rowCovers_pixRow]
    cases hbit : w.getLsbD 32 with
    | false => simp [decode_of_not_opBit hbit, Instr.opRow]
    | true => simp [decode_of_opBit hbit, Instr.opRow, hne]
  · rw [rowCovers_endRow]
    cases hbit : w.getLsbD 32 with
    | false => simp [decode_of_not_opBit hbit, Instr.opRow, hne.symm]
    | true => simp [decode_of_opBit hbit, Instr.opRow]

/-- Settles O9: the one row that covers a word is the row of its command. -/
theorem opcodeRowsPartitionTheWords : Obligations.OpcodeRowsPartitionTheWords := by
  intro w
  have hmem := (decode w).opRow_mem_opRows
  exact ⟨_, hmem, (rowCovers_iff_eq_opRow hmem w).mpr rfl, rfl, fun _ h => (rowCovers_iff_eq_opRow h w).mp⟩

/-- Settles O17: each word's bits are written in the order `op r g b a`. -/
theorem writtenOutWordsDecode : Obligations.WrittenOutWordsDecode :=
  ⟨decode_pix_word, by decide, decode_end_word, by decide⟩

end Sys2Proof

namespace Sys2Proof.Machine

/-- Settles O10: every word with `op = 1` decodes to `END`. -/
theorem endIgnoresItsPayload : Obligations.EndIgnoresItsPayload := by
  refine ⟨fun w w' h h' s => ?_, rfl⟩
  rw [decode_of_opBit h, decode_of_opBit h']
  exact ⟨rfl, rfl⟩

/-! ### What a pixel does not see (R64) -/

/-- A transparent sample's pair is the sentinel, whatever its colour (R87). -/
theorem quantizeRgb565_zero (r g b : Byte) : quantizeRgb565 r g b 0 = sentinel := rfl

/-- An opaque sample's pair is that of its colour (R88). -/
theorem quantizeRgb565_of_ne_zero (r g b : Byte) {a : Byte} (h : a ≠ 0) :
    quantizeRgb565 r g b a = (hiByte (packedOf r g b), loByte (packedOf r g b)) :=
  if_neg (mt (isTransparent_iff a).mp h)

/-- Every alpha but 0 is an opaque mask bit (R110). -/
theorem maskBit_of_ne_zero {a : Byte} (h : a ≠ 0) : maskBit a = true :=
  (maskBit_eq a).trans (decide_eq_true h)

/-- A `PIX` command acts by its pair and its mask bit alone (R140). -/
theorem exec_pix_congr {r g b a r' g' b' a' : Byte} (hpair : quantizeRgb565 r g b a = quantizeRgb565 r' g' b' a')
    (hmask : maskBit a = maskBit a') (s : State) : exec (.pix r g b a) s = exec (.pix r' g' b' a') s := by
  simp only [exec_pix, State.encodePixel, Sample.pair, hpair, hmask]

/-- Settles O11: the sentinel does not depend on the colour, nor an opaque pair and its mask bit on alpha. -/
theorem transparentPixelIgnoresItsColour : Obligations.TransparentPixelIgnoresItsColour := by
  refine ⟨fun r g b r' g' b' => exec_pix_congr ?transparent rfl, fun r g b a a' s ha ha' => exec_pix_congr ?pair ?mask s⟩
  case transparent => rw [quantizeRgb565_zero, quantizeRgb565_zero]
  case pair => rw [quantizeRgb565_of_ne_zero r g b ha, quantizeRgb565_of_ne_zero r g b ha']
  case mask => rw [maskBit_of_ne_zero ha, maskBit_of_ne_zero ha']

/-! ### Lines (R70, R71) -/

/-- A sample is admitted when its four operands are at most 255 (R70). -/
theorem sampleOk_iff {r g b a : Nat} :
    sampleOk (r, g, b, a) = true ↔ r ≤ 255 ∧ g ≤ 255 ∧ b ≤ 255 ∧ a ≤ 255 := by
  simp [sampleOk, operandOk, and_assoc]

/-- The word of admitted operands is their sum in their places (R70). -/
theorem pixWord_eq_ofNat {r g b a : Nat} (h : sampleOk (r, g, b, a) = true) :
    pixWord r g b a = BitVec.ofNat 33 (r * 2 ^ 24 + g * 2 ^ 16 + b * 2 ^ 8 + a) := by
  obtain ⟨hr, hg, hb, ha⟩ := sampleOk_iff.mp h
  apply BitVec.eq_of_toNat_eq
  simp only [pixWord, encode_pix_toNat, BitVec.toNat_ofNat]
  omega

/-- The channels of a sample are admitted operands (R7, R70). -/
theorem sampleOk_zext (r g b a : Byte) : sampleOk (zext r, zext g, zext b, zext a) = true :=
  sampleOk_iff.mpr ⟨Nat.le_of_lt_succ r.isLt, Nat.le_of_lt_succ g.isLt, Nat.le_of_lt_succ b.isLt,
    Nat.le_of_lt_succ a.isLt⟩

/-- The line of a sample has the word of its command (R70). -/
theorem pixWord_zext (r g b a : Byte) : pixWord (zext r) (zext g) (zext b) (zext a) = encode (.pix r g b a) := by
  simp [pixWord, zext]

/-- A line with every operand admitted assembles to the inputs of its expansion (R70, R71). -/
theorem assembleLine_of_wellFormed {l : AsmLine} (h : l.wellFormed = true) :
    assembleLine l = .ok ((expandLine l).flatMap coreInputs) :=
  if_pos h

/-- A line with an operand not admitted is an error (R70). -/
theorem assembleLine_of_not_wellFormed {l : AsmLine} (h : ¬l.wellFormed = true) :
    assembleLine l = .error .operandOutOfRange :=
  if_neg h

/-- A `PIX` line sends its word, or is an error (R70). -/
theorem assembleLine_pix (r g b a : Nat) :
    assembleLine (.pix r g b a) =
      if sampleOk (r, g, b, a) then .ok [.command (pixWord r g b a)] else .error .operandOutOfRange := rfl

/-- Settles O15: the operands are admitted exactly within 0..255, and then the word is their sum. -/
theorem pixLineAssemblesOrIsRefused : Obligations.PixLineAssemblesOrIsRefused := by
  intro r g b a
  rw [assembleLine_pix]
  refine if_ctx_congr sampleOk_iff (fun h => ?_) fun _ => rfl
  rw [pixWord_eq_ofNat (sampleOk_iff.mpr h)]

/-- A `FRAME` line sends one `PIX` word per sample and then the word of `END` (R71). -/
theorem inputs_frameLine (samples : List (Nat × Nat × Nat × Nat)) :
    (expandLine (.frame samples)).flatMap coreInputs =
      samples.map (fun p => .command (pixWord p.1 p.2.1 p.2.2.1 p.2.2.2)) ++ [.command (encode .endFrame)] := by
  rw [expandLine, List.flatMap_append, List.flatMap_map, List.map_eq_flatMap]
  rfl

/-- A `FRAME` line is well formed when every sample is admitted (R70, R71). -/
theorem wellFormed_frameLine_iff (samples : List (Nat × Nat × Nat × Nat)) :
    (AsmLine.frame samples).wellFormed = true ↔ ∀ p ∈ samples, sampleOk p = true :=
  List.all_eq_true

/-- Settles O60: the line is well formed exactly when all operands are admitted, and each sample's word is a sum. -/
theorem frameLineAssemblesOrIsRefused : Obligations.FrameLineAssemblesOrIsRefused := by
  refine fun samples => ⟨fun hall => ?assembles, fun hbad => ?refused⟩
  case assembles =>
    have hok : ∀ p ∈ samples, sampleOk p = true := fun p hp => sampleOk_iff.mpr (hall p hp)
    rw [assembleLine_of_wellFormed ((wellFormed_frameLine_iff samples).mpr hok), inputs_frameLine,
      List.map_congr_left fun p hp => by rw [pixWord_eq_ofNat (hok p hp)]]
    rfl
  case refused =>
    obtain ⟨⟨r, g, b, a⟩, hp, hout⟩ := hbad
    refine assembleLine_of_not_wellFormed fun hwf => ?_
    obtain ⟨hr, hg, hb, ha⟩ := sampleOk_iff.mp ((wellFormed_frameLine_iff samples).mp hwf _ hp)
    dsimp only at hout
    omega

/-- A `FRAME` line of samples sends the words of the frame's commands (R71, R142). -/
theorem assembleLine_frame_samples (samples : List Sample) :
    assembleLine (.frame (samples.map fun p => (zext p.r, zext p.g, zext p.b, zext p.a))) = .ok (frameInputs samples) := by
  have hok := (wellFormed_frameLine_iff (samples.map fun p => (zext p.r, zext p.g, zext p.b, zext p.a))).mpr <|
    List.forall_mem_map.mpr fun p _ => sampleOk_zext p.r p.g p.b p.a
  rw [assembleLine_of_wellFormed hok, inputs_frameLine]
  simp [frameInputs, frameInstrs, pixWord_zext, Sample.toInstr]

/-- A `PIXO` line is the `PIX` line with alpha 255, in range or not (R71). -/
theorem assembleLine_pixo (r g b : Nat) : assembleLine (.pixo r g b) = assembleLine (.pix r g b 255) := by
  have hwf : (AsmLine.pixo r g b).wellFormed = (AsmLine.pix r g b 255).wellFormed := (Bool.and_true _).symm
  rw [assembleLine, assembleLine, hwf, expandLine, expandLine]

/-- Settles O16: each line is its expansion, whose operands are admitted when the line's are. -/
theorem pseudoCommandsExpand : Obligations.PseudoCommandsExpand :=
  ⟨assembleLine_pixo, rfl, assembleLine_frame_samples, rfl⟩

/-! ### The disassembly (R72) -/

theorem disassemble_of_opBit {w : CmdWord} (h : w.getLsbD 32 = true) : disassemble w = .endFrame := by
  rw [disassemble, decode_of_opBit h]

theorem disassemble_of_not_opBit {w : CmdWord} (h : w.getLsbD 32 = false) :
    disassemble w =
      .pix (zext (byteField 24 w)) (zext (byteField 16 w)) (zext (byteField 8 w)) (zext (byteField 0 w)) := by
  rw [disassemble, decode_of_not_opBit h]

/-- The text of a `PIX` line with its operands in decimal (R72). -/
def pixLineText (r g b a : Nat) : List Char :=
  ['P', 'I', 'X', ' '] ++ decimalText r ++ [',', ' '] ++ decimalText g ++ [',', ' '] ++ decimalText b ++ [',', ' '] ++
    decimalText a

/-- The text of a word is that of the line its disassembly gives (R72). -/
theorem disassemblyText_of_opBit {w : CmdWord} (h : w.getLsbD 32 = true) : disassemblyText w = ['E', 'N', 'D'] := by
  rw [disassemblyText, decode_of_opBit h]

theorem disassemblyText_of_not_opBit {w : CmdWord} (h : w.getLsbD 32 = false) :
    disassemblyText w =
      pixLineText (zext (byteField 24 w)) (zext (byteField 16 w)) (zext (byteField 8 w)) (zext (byteField 0 w)) := by
  rw [disassemblyText, decode_of_not_opBit h, pixLineText]

/-- Assembling the disassembly sends the word, of an `END` word the canonical one (R72). -/
theorem assembleLine_disassemble (w : CmdWord) :
    assembleLine (disassemble w) = .ok [.command (if w.getLsbD 32 = true then 0x100000000#33 else w)] := by
  cases hbit : w.getLsbD 32 with
  | true => rw [disassemble_of_opBit hbit]; rfl
  | false =>
    have hword := encode_decode_of_not_opBit hbit
    rw [decode_of_not_opBit hbit] at hword
    rw [disassemble_of_not_opBit hbit, assembleLine_pix, if_pos (sampleOk_zext _ _ _ _), pixWord_zext, hword]
    rfl

/-- Settles O13: the four fields are the operands of the line, and the line sends the word. -/
theorem disassemblyIsCanonical : Obligations.DisassemblyIsCanonical := by
  refine fun w => ⟨fun hbit => ?pix, fun hbit => ?endFrame⟩
  case pix =>
    obtain ⟨hr, hg, hb, ha⟩ := sampleOk_iff.mp <|
      sampleOk_zext (byteField 24 w) (byteField 16 w) (byteField 8 w) (byteField 0 w)
    have hline := assembleLine_disassemble w
    rw [hbit] at hline
    exact ⟨_, _, _, _, hr, hg, hb, ha, toNat_eq_sum_byteFields hbit, disassemble_of_not_opBit hbit,
      disassemblyText_of_not_opBit hbit, hline⟩
  case endFrame =>
    have hline := assembleLine_disassemble w
    rw [hbit] at hline
    exact ⟨disassemble_of_opBit hbit, disassemblyText_of_opBit hbit, hline⟩

/-! ### Decimal numbers (R70, R72) -/

theorem hexDigit?_digitChar {d : Nat} (h : d < 10) : hexDigit? d.digitChar = some d := by
  decide +revert

theorem readDigits_singleton {base d : Nat} {c : Char} (hc : hexDigit? c = some d) (hd : d < base) :
    readDigits base [c] = some d := by
  simp [readDigits, hc, hd]

/-- One digit more is one place more. -/
theorem readDigits_concat {base v d : Nat} {cs : List Char} {c : Char} (hcs : readDigits base cs = some v)
    (hc : hexDigit? c = some d) (hd : d < base) : readDigits base (cs ++ [c]) = some (base * v + d) := by
  cases cs with
  | nil => simp [readDigits] at hcs
  | cons c' cs =>
    simp only [readDigits, List.isEmpty_cons, Bool.false_eq_true, if_false] at hcs
    simp only [readDigits, List.cons_append, List.isEmpty_cons, Bool.false_eq_true, if_false]
    rw [← List.cons_append, List.foldl_append, hcs]
    simp [hc, hd]

/-- A printed number reads back (R72). -/
theorem readDigits_toDigits (n : Nat) : readDigits 10 (Nat.toDigits 10 n) = some n := by
  induction n using Nat.base_induction 10 (by decide) with
  | single d hd =>
    rw [Nat.toDigits_of_lt_base hd]
    exact readDigits_singleton (hexDigit?_digitChar hd) hd
  | digit n d hd hn ih =>
    rw [← Nat.toDigits_append_toDigits (by decide) hn hd, Nat.toDigits_of_lt_base hd]
    exact readDigits_concat ih (hexDigit?_digitChar hd) hd

/-- Decimal digits are read as decimal: no `x` stands among them (R70). -/
theorem readNumber_of_isDigit {cs : List Char} (h : ∀ c ∈ cs, c.isDigit = true) :
    readNumber cs = readDigits 10 cs := by
  unfold readNumber
  split
  case h_1 => exact absurd (h 'x' (by simp)) (by decide)
  case h_2 => rfl

theorem isDigit_of_mem_decimalText {n : Nat} {c : Char} (h : c ∈ decimalText n) : c.isDigit = true :=
  Nat.isDigit_of_mem_toDigits (by decide) (by decide) h

/-- An operand printed in decimal reads back (R70, R72). -/
theorem readNumber_decimalText (n : Nat) : readNumber (decimalText n) = some n := by
  rw [readNumber_of_isDigit fun c => isDigit_of_mem_decimalText, decimalText, readDigits_toDigits]

/-! ### The pieces of a line (R70; log entry 12) -/

/-- The characters that end a piece, a command or a line. -/
def breakChars : List Char := [' ', '\t', '\r', ',', '(', ')', '#', '\n']

theorem readChar_of_not_breakChar {c : Char} (h : c ∉ breakChars) (st : List Char × List Token) :
    readChar st c = (c :: st.1, st.2) := by
  simp only [breakChars, List.mem_cons, not_or] at h
  simp [readChar, h]

/-- The characters of a word gather, last first. -/
theorem foldl_readChar_word {cs : List Char} (h : ∀ c ∈ cs, c ∉ breakChars) (st : List Char × List Token) :
    cs.foldl readChar st = (cs.reverse ++ st.1, st.2) := by
  induction cs generalizing st with
  | nil => rfl
  | cons c cs ih =>
    obtain ⟨hc, hcs⟩ := List.forall_mem_cons.mp h
    rw [List.foldl_cons, readChar_of_not_breakChar hc, ih hcs, List.reverse_cons, List.append_assoc,
      List.singleton_append]

/-- Between pieces there is no word to close. -/
theorem closeWord_nil (out : List Token) : closeWord ([], out) = ([], out) := rfl

/-- The gathered word becomes a piece. -/
theorem closeWord_reverse {cs : List Char} (h : cs ≠ []) (out : List Token) :
    closeWord (cs.reverse, out) = ([], .word cs :: out) := by
  obtain ⟨c, rest, hrev⟩ := List.exists_cons_of_ne_nil (mt List.reverse_eq_nil_iff.mp h)
  rw [hrev, closeWord, ← hrev, List.reverse_reverse]

/-- A printed number holds no break. -/
theorem not_breakChar_of_mem_decimalText {n : Nat} {c : Char} (h : c ∈ decimalText n) : c ∉ breakChars := by
  intro hc
  have hdigit := isDigit_of_mem_decimalText h
  have hnone : breakChars.all (fun c => !c.isDigit) = true := by decide
  simpa [hdigit] using List.all_eq_true.mp hnone c hc

/-- The characters of a printed number gather, last first. -/
theorem foldl_readChar_decimalText (n : Nat) (out : List Token) :
    (decimalText n).foldl readChar ([], out) = ((decimalText n).reverse, out) := by
  rw [foldl_readChar_word fun c => not_breakChar_of_mem_decimalText, List.append_nil]

/-- The gathered number becomes a piece, at the end of the line. -/
theorem closeWord_decimalText (n : Nat) (out : List Token) :
    closeWord ((decimalText n).reverse, out) = ([], .word (decimalText n) :: out) :=
  closeWord_reverse Nat.toDigits_ne_nil out

/-- The gathered number becomes a piece, and the comma behind it another. -/
theorem foldl_readChar_comma_blank (n : Nat) (out : List Token) :
    [',', ' '].foldl readChar ((decimalText n).reverse, out) = ([], .comma :: .word (decimalText n) :: out) := by
  simp [readChar, closeWord_decimalText, closeWord_nil]

/-- A text without an end of line is one line. -/
theorem splitLines_of_no_newline {text : List Char} (h : '\n' ∉ text) : splitLines text = [text] := by
  induction text with
  | nil => rfl
  | cons c cs ih =>
    obtain ⟨hc, hcs⟩ := List.ne_and_not_mem_of_not_mem_cons h
    rw [splitLines, ih hcs]
    simp [Ne.symm hc]

/-- A line without a comment is read to its end. -/
theorem tokens_of_no_comment {line : List Char} (h : '#' ∉ line) :
    tokens line = (closeWord (line.foldl readChar ([], []))).2.reverse := by
  rw [tokens, List.takeWhile_eq_self_iff.mpr]
  intro c hc
  exact bne_iff_ne.mpr (ne_of_mem_of_not_mem hc h)

/-! ### The text of a disassembly (R72) -/

theorem not_mem_pixLineText {c : Char} (hc : c ∉ ['P', 'I', 'X', ' ', ',']) (hdigit : c.isDigit = false)
    (r g b a : Nat) : c ∉ pixLineText r g b a := by
  have hnumber : ∀ n, c ∉ decimalText n := fun n hmem => by simpa [hdigit] using isDigit_of_mem_decimalText hmem
  simp only [List.mem_cons, not_or] at hc
  simp [pixLineText, hnumber, hc]

theorem tokens_pixLineText (r g b a : Nat) :
    tokens (pixLineText r g b a) =
      [.word ['P', 'I', 'X'], .word (decimalText r), .comma, .word (decimalText g), .comma, .word (decimalText b),
        .comma, .word (decimalText a)] := by
  have hmnemonic : ['P', 'I', 'X', ' '].foldl readChar ([], []) = ([], [.word ['P', 'I', 'X']]) := by decide
  rw [tokens_of_no_comment (not_mem_pixLineText (c := '#') (by decide) (by decide) r g b a), pixLineText]
  simp only [List.foldl_append, hmnemonic, foldl_readChar_decimalText, foldl_readChar_comma_blank,
    closeWord_decimalText]
  rfl

/-- The text of a `PIX` line reads as that line, whatever its operands (R70). -/
theorem parseLine_pixLineText (r g b a : Nat) : parseLine (pixLineText r g b a) = .ok [.pix r g b a] := by
  simp [parseLine, tokens_pixLineText, lineOf, readFour, readNumber_decimalText]

/-- The text of a disassembly reads as the line of the disassembly (R70, R72). -/
theorem parseLine_disassemblyText (w : CmdWord) : parseLine (disassemblyText w) = .ok [disassemble w] := by
  cases hbit : w.getLsbD 32 with
  | true => rw [disassemblyText_of_opBit hbit, disassemble_of_opBit hbit]; decide
  | false => rw [disassemblyText_of_not_opBit hbit, disassemble_of_not_opBit hbit]; exact parseLine_pixLineText ..

/-- The text of a disassembly is one line (R72). -/
theorem newline_not_mem_disassemblyText (w : CmdWord) : '\n' ∉ disassemblyText w := by
  cases hbit : w.getLsbD 32 with
  | true => rw [disassemblyText_of_opBit hbit]; decide
  | false =>
    rw [disassemblyText_of_not_opBit hbit]
    exact not_mem_pixLineText (by decide) (by decide) _ _ _ _

theorem assembleLines_singleton (l : AsmLine) : assembleLines [l] = assembleLine l := by
  rw [assembleLines, assembleLines]
  cases assembleLine l with
  | ok inputs => simp
  | error e => rfl

/-- A text of one line assembles as that line does (R70). -/
theorem assembleText_of_parseLine {text : List Char} {l : AsmLine} (hnewline : '\n' ∉ text)
    (hparse : parseLine text = .ok [l]) : assembleText text = assembleLine l := by
  have hlines : parseLines [text] = .ok [l] := by simp [parseLines, hparse]
  rw [assembleText, splitLines_of_no_newline hnewline, hlines, ← assembleLines_singleton]

/-- Settles O14: the text of the disassembly is one line, which reads as the disassembly. -/
theorem assemblingADisassembledTextGivesTheWordBack : Obligations.AssemblingADisassembledTextGivesTheWordBack := by
  intro w
  rw [assembleText_of_parseLine (newline_not_mem_disassemblyText w) (parseLine_disassemblyText w)]
  exact assembleLine_disassemble w

end Sys2Proof.Machine

/-! Proofs of the statements of `40_quantizer.md`: the two scalings as floors, the fields of a packed value, and what a
pair tells of its sample. -/

namespace Sys2Proof.Machine

/-! ### Scaling (R80, R81, R93) -/

/-- Rounding up a quotient is the lower adjoint of multiplying (R80, R81). -/
theorem ceilDiv_le_iff {a m x : Nat} (hm : 0 < m) : ceilDiv a m ≤ x ↔ a ≤ m * x := by
  rw [ceilDiv, ← Nat.ceilDiv_eq_add_pred_div, ceilDiv_le_iff_le_mul hm]

/-- A floor of `m x / 255` reaches `k` from `x = ceil(255 k / m)` on (R80, R81). -/
theorem le_mul_div_255_iff {k m x : Nat} (hm : 0 < m) : k ≤ m * x / 255 ↔ ceilDiv (255 * k) m ≤ x := by
  rw [ceilDiv_le_iff hm, Nat.le_div_iff_mul_le (by decide), Nat.mul_comm k]

/-- The threshold of each 5-bit value (R80). -/
theorem le_scale5_iff (x : Byte) (k : Nat) : k ≤ (scale5 x).toNat ↔ ceilDiv (255 * k) 31 ≤ x.toNat := by
  rw [scale5_toNat, le_mul_div_255_iff (by decide)]

/-- The threshold of each 6-bit value (R81). -/
theorem le_scale6_iff (x : Byte) (k : Nat) : k ≤ (scale6 x).toNat ↔ ceilDiv (255 * k) 63 ≤ x.toNat := by
  rw [scale6_toNat, le_mul_div_255_iff (by decide)]

/-- A bit vector of the largest value is one that is not below it. -/
theorem eq_allOnes_iff_le_toNat {n : Nat} (v : BitVec n) : v = BitVec.allOnes n ↔ 2 ^ n - 1 ≤ v.toNat := by
  have hlt := v.isLt
  rw [← BitVec.toNat_inj, BitVec.toNat_allOnes]
  omega

/-- Full scale in five bits is the full byte only (R80). -/
theorem scale5_eq_full_iff (x : Byte) : scale5 x = 31#5 ↔ x = 255#8 :=
  calc scale5 x = 31#5 ↔ 31 ≤ (scale5 x).toNat := eq_allOnes_iff_le_toNat (scale5 x)
    _ ↔ 255 ≤ x.toNat := le_scale5_iff x 31
    _ ↔ x = 255#8 := (eq_allOnes_iff_le_toNat x).symm

/-- Full scale in six bits is the full byte only (R81). -/
theorem scale6_eq_full_iff (x : Byte) : scale6 x = 63#6 ↔ x = 255#8 :=
  calc scale6 x = 63#6 ↔ 63 ≤ (scale6 x).toNat := eq_allOnes_iff_le_toNat (scale6 x)
    _ ↔ 255 ≤ x.toNat := le_scale6_iff x 63
    _ ↔ x = 255#8 := (eq_allOnes_iff_le_toNat x).symm

theorem topBits_toNat (v : BitVec 6) : (v.extractLsb' 3 3).toNat = v.toNat / 8 := by
  have hlt := v.isLt
  rw [BitVec.extractLsb'_toNat, Nat.shiftRight_eq_div_pow]
  omega

/-- The top three bits of a 6-bit value are set from 56 on. -/
theorem topBits_eq_seven_iff (v : BitVec 6) : v.extractLsb' 3 3 = 7#3 ↔ 56 ≤ v.toNat := by
  have hlt := v.isLt
  rw [← BitVec.toNat_inj, topBits_toNat, BitVec.toNat_ofNat]
  omega

/-- The top three bits of a 6-bit value are clear up to 7. -/
theorem topBits_eq_zero_iff (v : BitVec 6) : v.extractLsb' 3 3 = 0#3 ↔ ¬8 ≤ v.toNat := by
  rw [← BitVec.toNat_inj, topBits_toNat, BitVec.toNat_ofNat]
  omega

/-- The top three bits of scaled red are set from 227 on (R81). -/
theorem scale6_topBits_eq_seven_iff (x : Byte) : (scale6 x).extractLsb' 3 3 = 7#3 ↔ 227 ≤ x.toNat :=
  (topBits_eq_seven_iff (scale6 x)).trans (le_scale6_iff x 56)

/-- Settles O18: each value of the floor has its threshold, and the last one is 255. -/
theorem scaleFiveIsTheFloor : Obligations.ScaleFiveIsTheFloor :=
  ⟨scale5_toNat, fun x k _ => le_scale5_iff x k, scale5_eq_full_iff, by decide⟩

/-- Settles O19: each value of the floor has its threshold, which is 227 for 56, the first with its top bits set. -/
theorem scaleSixIsTheFloor : Obligations.ScaleSixIsTheFloor :=
  ⟨scale6_toNat, fun x k _ => le_scale6_iff x k, scale6_eq_full_iff, scale6_topBits_eq_seven_iff, by decide⟩

theorem scale5_mono {x y : Byte} (h : x.toNat ≤ y.toNat) : (scale5 x).toNat ≤ (scale5 y).toNat := by
  rw [scale5_toNat, scale5_toNat]
  gcongr

theorem scale6_mono {x y : Byte} (h : x.toNat ≤ y.toNat) : (scale6 x).toNat ≤ (scale6 y).toNat := by
  rw [scale6_toNat, scale6_toNat]
  gcongr

/-- The floor of a threshold is its value (R80, R81). -/
theorem mul_ceilDiv_div_255 {k m : Nat} (hm : 0 < m) (h255 : m ≤ 255) : m * ceilDiv (255 * k) m / 255 = k := by
  have hle : k ≤ m * ceilDiv (255 * k) m / 255 := (le_mul_div_255_iff hm).mpr le_rfl
  have hlt : m * ceilDiv (255 * k) m < 255 * k + m := by
    have := Nat.mul_div_le (255 * k + m - 1) m
    rw [ceilDiv]
    omega
  omega

/-- Every value up to `m` is that of a byte, its threshold (R80, R81). -/
theorem exists_mul_div_255_eq {k m : Nat} (hm : 0 < m) (h255 : m ≤ 255) (hk : k ≤ m) :
    ∃ x : Byte, m * x.toNat / 255 = k := by
  have hbyte : ceilDiv (255 * k) m ≤ 255 := by
    rw [ceilDiv_le_iff hm, Nat.mul_comm m]
    gcongr
  refine ⟨BitVec.ofNat 8 (ceilDiv (255 * k) m), ?_⟩
  rw [BitVec.toNat_ofNat, Nat.mod_eq_of_lt (Nat.lt_succ_of_le hbyte), mul_ceilDiv_div_255 hm h255]

theorem scale5_surjective : Function.Surjective scale5 := fun v =>
  have ⟨x, hx⟩ := exists_mul_div_255_eq (m := 31) (by decide) (by decide) (Nat.le_of_lt_succ v.isLt)
  ⟨x, BitVec.eq_of_toNat_eq ((scale5_toNat x).trans hx)⟩

theorem scale6_surjective : Function.Surjective scale6 := fun v =>
  have ⟨x, hx⟩ := exists_mul_div_255_eq (m := 63) (by decide) (by decide) (Nat.le_of_lt_succ v.isLt)
  ⟨x, BitVec.eq_of_toNat_eq ((scale6_toNat x).trans hx)⟩

/-! ### The packed value (R83, R84) -/

/-- The three fields stand side by side (R83). -/
theorem pack_eq_append (g5 : BitVec 5) (r6 : BitVec 6) (b5 : BitVec 5) : pack g5 r6 b5 = g5 ++ r6 ++ b5 := by
  apply BitVec.eq_of_toNat_eq
  rw [pack_toNat, BitVec.toNat_append, BitVec.toNat_append, ← Nat.shiftLeft_add_eq_or_of_lt r6.isLt,
    ← Nat.shiftLeft_add_eq_or_of_lt b5.isLt, Nat.shiftLeft_eq, Nat.shiftLeft_eq]
  omega

/-- Green is read back at its place (R84). -/
theorem pack_green (g5 : BitVec 5) (r6 : BitVec 6) (b5 : BitVec 5) : (pack g5 r6 b5).extractLsb' 11 5 = g5 := by
  rw [pack_eq_append, BitVec.extractLsb'_append_eq_of_le (by decide), BitVec.extractLsb'_append_eq_left]

/-- Red is read back at its place (R84). -/
theorem pack_red (g5 : BitVec 5) (r6 : BitVec 6) (b5 : BitVec 5) : (pack g5 r6 b5).extractLsb' 5 6 = r6 := by
  rw [pack_eq_append, BitVec.extractLsb'_append_eq_of_le le_rfl, BitVec.extractLsb'_append_eq_right]

/-- Blue is read back at its place (R84). -/
theorem pack_blue (g5 : BitVec 5) (r6 : BitVec 6) (b5 : BitVec 5) : (pack g5 r6 b5).extractLsb' 0 5 = b5 := by
  rw [pack_eq_append, BitVec.extractLsb'_append_eq_right]

/-- A packed value is its three fields (R83, R84). -/
theorem pack_fields (p : Packed) : pack (p.extractLsb' 11 5) (p.extractLsb' 5 6) (p.extractLsb' 0 5) = p := by
  rw [pack_eq_append, BitVec.extractLsb'_append_extractLsb'_eq_extractLsb' (by decide),
    BitVec.extractLsb'_append_extractLsb'_eq_extractLsb' (by decide), BitVec.extractLsb'_eq_self]

/-- Every packed value is that of a colour (R84). -/
theorem exists_packedOf_eq (p : Packed) : ∃ r g b : Byte, packedOf r g b = p := by
  obtain ⟨g, hg⟩ := scale5_surjective (p.extractLsb' 11 5)
  obtain ⟨r, hr⟩ := scale6_surjective (p.extractLsb' 5 6)
  obtain ⟨b, hb⟩ := scale5_surjective (p.extractLsb' 0 5)
  exact ⟨r, g, b, by rw [packedOf, hg, hr, hb, pack_fields]⟩

/-- Settles O21: the packed value is the three fields appended, and each scaling reaches every value of its field. -/
theorem packPlacesTheFieldsWithoutOverlap : Obligations.PackPlacesTheFieldsWithoutOverlap :=
  ⟨fun g5 r6 b5 => ⟨pack_toNat g5 r6 b5, pack_green g5 r6 b5, pack_red g5 r6 b5, pack_blue g5 r6 b5⟩,
    exists_packedOf_eq⟩

/-- The packed value is non-decreasing in the three channels together (R93). -/
theorem packedOf_mono {r g b r' g' b' : Byte} (hr : r.toNat ≤ r'.toNat) (hg : g.toNat ≤ g'.toNat)
    (hb : b.toNat ≤ b'.toNat) : (packedOf r g b).toNat ≤ (packedOf r' g' b').toNat := by
  simp only [packedOf, pack_toNat]
  gcongr
  · exact scale5_mono hg
  · exact scale6_mono hr
  · exact scale5_mono hb

/-- Settles O27: a floor and a sum of multiples are monotone; the high byte is not, as it wraps at `r = 227`. -/
theorem scalingIsMonotone : Obligations.ScalingIsMonotone :=
  ⟨fun _ _ h => ⟨scale5_mono h, scale6_mono h⟩, fun _ _ _ _ _ _ => packedOf_mono, by decide, by decide⟩

/-! ### The two bytes of a packed value (R85, R86) -/

/-- The upper eight bits of a packed value, before the reduction modulo 255 (the `t` of R85). -/
def topByte (p : Packed) : Byte := p.extractLsb' 8 8

theorem toNat_eq_255_iff (x : Byte) : x.toNat = 255 ↔ x = 255#8 :=
  BitVec.toNat_inj (y := 255#8)

theorem topByte_toNat (p : Packed) : (topByte p).toNat = p.toNat / 256 := by
  have hlt := p.isLt
  rw [topByte, BitVec.extractLsb'_toNat, Nat.shiftRight_eq_div_pow]
  omega

theorem loByte_eq_extractLsb' (p : Packed) : loByte p = p.extractLsb' 0 8 := by
  apply BitVec.eq_of_toNat_eq
  rw [loByte_toNat, BitVec.extractLsb'_toNat, Nat.shiftRight_zero]

theorem topByte_append (hi lo : Byte) : topByte (hi ++ lo) = hi := BitVec.extractLsb'_append_eq_left

theorem loByte_append (hi lo : Byte) : loByte (hi ++ lo) = lo := by
  rw [loByte_eq_extractLsb', BitVec.extractLsb'_append_eq_right]

/-- Reduction modulo 255 changes the top byte 255 only, to 0 (R85). -/
theorem hiByte_eq_ite (p : Packed) : hiByte p = if topByte p = 255#8 then 0#8 else topByte p := by
  have hlt := (topByte p).isLt
  apply BitVec.eq_of_toNat_eq
  rw [hiByte_toNat, ← topByte_toNat]
  split
  case isTrue h => rw [h]; rfl
  case isFalse h =>
    have hne := mt (toNat_eq_255_iff (topByte p)).mp h
    exact Nat.mod_eq_of_lt (by omega)

theorem hiByte_of_topByte_ne {p : Packed} (h : topByte p ≠ 255#8) : hiByte p = topByte p :=
  (hiByte_eq_ite p).trans (if_neg h)

theorem hiByte_eq_zero_iff (p : Packed) : hiByte p = 0#8 ↔ topByte p = 255#8 ∨ topByte p = 0#8 := by
  rw [hiByte_eq_ite, ite_eq_iff]
  tauto

theorem hiByte_toNat_le (p : Packed) : (hiByte p).toNat ≤ 254 := by
  rw [hiByte_toNat]
  omega

/-- The high byte never collides with that of the sentinel (R85, R89). -/
theorem hiByte_ne_ff (p : Packed) : hiByte p ≠ 0xFF#8 := fun h => by
  have hle := hiByte_toNat_le p
  rw [h] at hle
  exact absurd hle (by decide)

/-- Two bytes are those of a packed value when the upper one is at most 254 (R85, R86). -/
theorem hiByte_append {hi : Byte} (h : hi.toNat ≤ 254) (lo : Byte) : hiByte (hi ++ lo) = hi := by
  have hne : hi ≠ 255#8 := mt (toNat_eq_255_iff hi).mpr (by omega)
  rw [hiByte_of_topByte_ne (by rwa [topByte_append]), topByte_append]

/-- Settles O22: the high byte is the top byte with 255 wrapped to 0. -/
theorem highByteIsTakenModulo255 : Obligations.HighByteIsTakenModulo255 := by
  refine ⟨fun p => ⟨hiByte_toNat p, ?wrapped, hiByte_toNat_le p, loByte_toNat p⟩,
    fun v => ⟨0#8 ++ v, loByte_append 0#8 v⟩⟩
  case wrapped =>
    rw [hiByte_eq_ite, apply_ite BitVec.toNat, ← topByte_toNat]
    exact if_congr (toNat_eq_255_iff (topByte p)).symm rfl rfl

/-! ### The pair of a sample (R87 to R89, R92) -/

/-- Settles O26: neither alpha is 0, so both pairs are that of the colour. -/
theorem nonzeroAlphaDoesNotTouchTheColour : Obligations.NonzeroAlphaDoesNotTouchTheColour := by
  intro r g b a ha
  have hne : a ≠ 0 := fun h => absurd (h ▸ ha) (by decide)
  rw [quantizeRgb565_of_ne_zero r g b hne, quantizeRgb565_of_ne_zero r g b (by decide)]

theorem hiByte_eq_ofNat (p : Packed) : hiByte p = BitVec.ofNat 8 (p.toNat / 256 % 255) := by
  rw [← hiByte_toNat, BitVec.ofNat_toNat, BitVec.setWidth_eq]

theorem loByte_eq_ofNat (p : Packed) : loByte p = BitVec.ofNat 8 (p.toNat % 256) := by
  rw [← loByte_toNat, BitVec.ofNat_toNat, BitVec.setWidth_eq]

/-- Settles O23: the sentinel for alpha 0, and otherwise the two bytes of the packed value as numbers. -/
theorem quantizerComputesThePair : Obligations.QuantizerComputesThePair := by
  intro r g b a packed
  have hpacked : (packedOf r g b).toNat = packed := packedOf_toNat r g b
  split
  case isTrue ha =>
    obtain rfl : a = 0 := BitVec.eq_of_toNat_eq ha
    exact quantizeRgb565_zero r g b
  case isFalse ha =>
    have hne : a ≠ 0 := fun h => ha (congrArg BitVec.toNat h)
    rw [quantizeRgb565_of_ne_zero r g b hne, hiByte_eq_ofNat, loByte_eq_ofNat, hpacked]

/-- The sentinel is the pair of the transparent samples only (R89). -/
theorem quantizeRgb565_eq_sentinel_iff (r g b a : Byte) : quantizeRgb565 r g b a = sentinel ↔ a = 0 := by
  refine ⟨fun h => ?_, fun h => h ▸ quantizeRgb565_zero r g b⟩
  by_contra hne
  rw [quantizeRgb565_of_ne_zero r g b hne] at h
  exact hiByte_ne_ff _ (congrArg Prod.fst h)

/-- The opaque pairs are all those with a high byte of at most 254 (R89). -/
theorem exists_opaque_pair_iff (hi lo : Byte) :
    (∃ r g b a : Byte, a ≠ 0 ∧ quantizeRgb565 r g b a = (hi, lo)) ↔ hi.toNat ≤ 254 := by
  constructor
  · rintro ⟨r, g, b, a, hne, hpair⟩
    rw [quantizeRgb565_of_ne_zero r g b hne] at hpair
    obtain ⟨rfl, -⟩ := Prod.mk.inj hpair
    exact hiByte_toNat_le _
  · intro hle
    obtain ⟨r, g, b, hpacked⟩ := exists_packedOf_eq (hi ++ lo)
    refine ⟨r, g, b, 255, by decide, ?_⟩
    rw [quantizeRgb565_of_ne_zero r g b (by decide), hpacked, hiByte_append hle, loByte_append]

/-- Yellow with nearly full blue packs to the bytes of the sentinel (R89). -/
theorem packedOf_eq_fffe {b : Byte} (hlo : 247 ≤ b.toNat) (hhi : b.toNat ≤ 254) :
    packedOf 255 255 b = 0xFFFE#16 := by
  have hblue : 31 * b.toNat / 255 = 30 := by omega
  apply BitVec.eq_of_toNat_eq
  rw [packedOf_toNat, hblue]
  decide

/-- Settles O24: no high byte of a packed value is `0xFF`, and every other one is that of a colour. -/
theorem sentinelIsNeverAnOpaquePair : Obligations.SentinelIsNeverAnOpaquePair := by
  refine ⟨fun r g b a => ⟨quantizeRgb565_eq_sentinel_iff r g b a, ?maskBit⟩, exists_opaque_pair_iff,
    fun b a hne hlo hhi => ⟨packedOf_eq_fffe hlo hhi, ?wrapped⟩⟩
  case maskBit => simp [maskBit_eq]
  case wrapped =>
    rw [quantizeRgb565_of_ne_zero 255 255 b hne, packedOf_eq_fffe hlo hhi]
    decide

/-! ### The fields in the two bytes (R90, R95) -/

/-- Red is its upper half and its lower half. -/
theorem red_eq_append (p : Packed) : p.extractLsb' 5 6 = p.extractLsb' 8 3 ++ p.extractLsb' 5 3 := by
  rw [BitVec.extractLsb'_append_extractLsb'_eq_extractLsb' (by decide)]

/-- The top byte holds green and the upper half of red (R83, R85). -/
theorem topByte_eq_append (p : Packed) : topByte p = p.extractLsb' 11 5 ++ p.extractLsb' 8 3 := by
  rw [topByte, BitVec.extractLsb'_append_extractLsb'_eq_extractLsb' (by decide)]

/-- The low byte holds the lower half of red and blue (R83, R86). -/
theorem loByte_eq_append (p : Packed) : loByte p = p.extractLsb' 5 3 ++ p.extractLsb' 0 5 := by
  rw [loByte_eq_extractLsb', BitVec.extractLsb'_append_extractLsb'_eq_extractLsb' (by decide)]

/-- A value of the top byte is one of green and one of the upper half of red. -/
theorem topByte_eq_append_iff (p : Packed) (green : BitVec 5) (upper : BitVec 3) :
    topByte p = green ++ upper ↔ p.extractLsb' 11 5 = green ∧ p.extractLsb' 8 3 = upper := by
  rw [topByte_eq_append]
  refine ⟨fun h => ⟨?_, ?_⟩, fun ⟨hgreen, hupper⟩ => by rw [hgreen, hupper]⟩
  · simpa only [BitVec.extractLsb'_append_eq_left] using congrArg (BitVec.extractLsb' 3 5) h
  · simpa only [BitVec.extractLsb'_append_eq_right] using congrArg (BitVec.extractLsb' 0 3) h

/-- The upper half of a packed red field is its top three bits. -/
theorem pack_upperRed (g5 : BitVec 5) (r6 : BitVec 6) (b5 : BitVec 5) :
    (pack g5 r6 b5).extractLsb' 8 3 = r6.extractLsb' 3 3 := by
  have hred := congrArg (BitVec.extractLsb' 3 3) (pack_red g5 r6 b5)
  rwa [red_eq_append, BitVec.extractLsb'_append_eq_left] at hred

/-- The top byte of a colour in its two fields. -/
theorem topByte_packedOf_eq_append_iff (r g b : Byte) (green : BitVec 5) (upper : BitVec 3) :
    topByte (packedOf r g b) = green ++ upper ↔ scale5 g = green ∧ (scale6 r).extractLsb' 3 3 = upper := by
  rw [topByte_eq_append_iff, packedOf, pack_green, pack_upperRed]

/-- The top byte is full for bright yellow only (R90). -/
theorem topByte_packedOf_eq_full_iff (r g b : Byte) :
    topByte (packedOf r g b) = 255#8 ↔ g.toNat = 255 ∧ 227 ≤ r.toNat := by
  have hgreen : scale5 g = 31#5 ↔ g.toNat = 255 :=
    (scale5_eq_full_iff g).trans (toNat_eq_255_iff g).symm
  rw [← hgreen, ← scale6_topBits_eq_seven_iff]
  exact topByte_packedOf_eq_append_iff r g b 31#5 7#3

theorem scale5_eq_zero_iff (x : Byte) : scale5 x = 0#5 ↔ x.toNat ≤ 8 := by
  have hthreshold : 1 ≤ (scale5 x).toNat ↔ 9 ≤ x.toNat := le_scale5_iff x 1
  rw [← BitVec.toNat_inj, BitVec.toNat_ofNat]
  omega

/-- The top byte is 0 for colours with little green and red (R90). -/
theorem topByte_packedOf_eq_zero_iff (r g b : Byte) :
    topByte (packedOf r g b) = 0#8 ↔ g.toNat ≤ 8 ∧ r.toNat ≤ 32 := by
  have hred : (scale6 r).extractLsb' 3 3 = 0#3 ↔ r.toNat ≤ 32 :=
    (topBits_eq_zero_iff (scale6 r)).trans ((le_scale6_iff r 8).not.trans (Nat.not_le.trans Nat.lt_succ_iff))
  rw [← scale5_eq_zero_iff, ← hred]
  exact topByte_packedOf_eq_append_iff r g b 0#5 0#3

/-- Settles O25: the high byte is 0 when the top byte is 0 or 255, and each is a range of green and of red. -/
theorem highByteWrapsExactlyForBrightYellow : Obligations.HighByteWrapsExactlyForBrightYellow := by
  refine ⟨fun r g b => ?full, fun r g b a hne => ?zero, by decide, by decide⟩
  case full =>
    rw [← topByte_toNat, toNat_eq_255_iff, topByte_packedOf_eq_full_iff]
  case zero =>
    rw [quantizeRgb565_of_ne_zero r g b hne, hiByte_eq_zero_iff, topByte_packedOf_eq_full_iff,
      topByte_packedOf_eq_zero_iff]

/-- A pair whose high byte is not 0 reads as the fields of its packed value (R95). -/
theorem readPair_of_hiByte_ne_zero {p : Packed} (h : hiByte p ≠ 0#8) :
    readPair (hiByte p) (loByte p) = .colour (p.extractLsb' 11 5) (p.extractLsb' 5 6) (p.extractLsb' 0 5) := by
  have htop : hiByte p = topByte p := hiByte_of_topByte_ne fun hfull => h ((hiByte_eq_zero_iff p).mpr (.inl hfull))
  rw [readPair, if_neg fun ⟨hff, _⟩ => hiByte_ne_ff p hff, if_pos h, htop, topByte_eq_append,
    loByte_eq_append, BitVec.extractLsb'_append_eq_left, BitVec.extractLsb'_append_eq_right,
    BitVec.extractLsb'_append_eq_left, BitVec.extractLsb'_append_eq_right, red_eq_append]

/-- A pair whose high byte is 0 reads as the fields of its low byte (R95). -/
theorem readPair_of_hiByte_eq_zero {p : Packed} (h : hiByte p = 0#8) :
    readPair (hiByte p) (loByte p) = .highByteLost (p.extractLsb' 5 3) (p.extractLsb' 0 5) := by
  rw [readPair, if_neg fun ⟨hff, _⟩ => hiByte_ne_ff p hff, if_neg (not_not.mpr h), loByte_eq_append,
    BitVec.extractLsb'_append_eq_left, BitVec.extractLsb'_append_eq_right]

/-- What is lost with a high byte of 0 is one of two possibilities (R90, R95). -/
theorem highByteLost_admits {p : Packed} (h : hiByte p = 0#8) :
    (PixelReading.highByteLost (p.extractLsb' 5 3) (p.extractLsb' 0 5)).admits (p.extractLsb' 11 5)
      (p.extractLsb' 5 6) (p.extractLsb' 0 5) = true := by
  rw [red_eq_append]
  obtain hfull | hzero := (hiByte_eq_zero_iff p).mp h
  · obtain ⟨hgreen, hupper⟩ := (topByte_eq_append_iff p 31#5 7#3).mp hfull
    simp [PixelReading.admits, hgreen, hupper]
  · obtain ⟨hgreen, hupper⟩ := (topByte_eq_append_iff p 0#5 0#3).mp hzero
    simp [PixelReading.admits, hgreen, hupper]

/-- The reading of a packed value's pair leaves its fields possible (R95). -/
theorem readPair_admits (p : Packed) :
    (readPair (hiByte p) (loByte p)).admits (p.extractLsb' 11 5) (p.extractLsb' 5 6) (p.extractLsb' 0 5) = true := by
  by_cases h : hiByte p = 0#8
  · rw [readPair_of_hiByte_eq_zero h]
    exact highByteLost_admits h
  · rw [readPair_of_hiByte_ne_zero h]
    simp [PixelReading.admits]

/-- Settles O28: a transparent pair is the sentinel; an opaque one is read field by field from its packed value. -/
theorem pairReadsBackItsFields : Obligations.PairReadsBackItsFields := by
  intro r g b a pair reading
  have hgreen : (packedOf r g b).extractLsb' 11 5 = scale5 g := pack_green ..
  have hred : (packedOf r g b).extractLsb' 5 6 = scale6 r := pack_red ..
  have hblue : (packedOf r g b).extractLsb' 0 5 = scale5 b := pack_blue ..
  by_cases ha : a = 0
  case pos =>
    have hpair : pair = sentinel := (quantizeRgb565_eq_sentinel_iff r g b a).mpr ha
    refine ⟨fun _ => ?_, fun hne => absurd ha hne, fun _ => congrArg Prod.snd hpair⟩
    exact congrArg (fun q : Byte × Byte => readPair q.1 q.2) hpair
  case neg =>
    have hpair : pair = (hiByte (packedOf r g b), loByte (packedOf r g b)) := quantizeRgb565_of_ne_zero r g b ha
    have hreading : reading = readPair (hiByte (packedOf r g b)) (loByte (packedOf r g b)) :=
      congrArg (fun q : Byte × Byte => readPair q.1 q.2) hpair
    rw [hreading, hpair, ← hgreen, ← hred, ← hblue]
    exact ⟨fun h => absurd h ha, fun _ => ⟨readPair_admits _, readPair_of_hiByte_ne_zero⟩,
      fun h => absurd h (hiByte_ne_ff _)⟩

end Sys2Proof.Machine

/-! Proofs of the statements of `41_mask_encoder.md`: one pixel, the padded last byte in both pad modes, a whole
sequence of mask bits, and the mask bits of a frame. -/

namespace Sys2Proof.Machine

/-! ### One mask bit (R110, R112) -/

/-- The shifted value as the byte of a number (R112). -/
theorem shiftedIn_eq_ofNat (acc : Byte) (m : Bool) :
    shiftedIn acc m = BitVec.ofNat 8 ((2 * acc.toNat + m.toNat) % 256) := by
  rw [← shiftedIn_toNat, BitVec.ofNat_toNat, BitVec.setWidth_eq]

/-- The mask bit as a number (R110). -/
theorem maskBit_toNat (a : Byte) : (maskBit a).toNat = if a.toNat = 0 then 0 else 1 := by
  have hzero : a = 0#8 ↔ a.toNat = 0 := (BitVec.toNat_inj (y := 0#8)).symm
  by_cases h : a.toNat = 0
  · rw [if_pos h, hzero.mpr h]; rfl
  · rw [if_neg h, maskBit_of_ne_zero (mt hzero.mp h)]; rfl

/-- `CNT` after a mask bit, as the register of a number (R23, R112). -/
theorem State.shiftIn_cnt (s : State) (m : Bool) :
    (s.shiftIn m).cnt = if s.cnt = 7#3 then 0#3 else BitVec.ofNat 3 (s.cnt.toNat + 1) := by
  by_cases h : s.cnt = 7#3
  · rw [State.shiftIn_completes s m h, if_pos h, State.setMaskRegs_cnt]
  · rw [State.shiftIn_pending s m h, if_neg h, State.setMaskRegs_cnt, BitVec.ofNat_add, BitVec.ofNat_toNat,
      BitVec.setWidth_eq]

/-- A shift-in reads and writes `ACC`, `CNT` and MASK only (R112). -/
theorem State.shiftIn_mask_congr {s s' : State} (hacc : s.acc = s'.acc) (hcnt : s.cnt = s'.cnt)
    (hmask : s.maskOut = s'.maskOut) (m : Bool) :
    (s.shiftIn m).acc = (s'.shiftIn m).acc ∧ (s.shiftIn m).cnt = (s'.shiftIn m).cnt ∧
      (s.shiftIn m).maskOut = (s'.shiftIn m).maskOut := by
  simp only [State.shiftIn_acc, State.shiftIn_cnt, State.shiftIn_maskOut, hacc, hcnt, hmask, and_self]

/-- Settles O36: the MASK half of both pixels is the shift-in of one and the same mask bit. -/
theorem maskHalfDoesNotSeeTheColour : Obligations.MaskHalfDoesNotSeeTheColour := by
  intro r g b r' g' b' a s s' t t' hacc hcnt hmask h h'
  rw [exec_pix] at h h'
  injection h with h
  injection h' with h'
  subst h h'
  obtain ⟨ha, hc, hm⟩ := s.encodePixel_mask { r := r, g := g, b := b, a := a }
  obtain ⟨ha', hc', hm'⟩ := s'.encodePixel_mask { r := r', g := g', b := b', a := a }
  rw [ha, hc, hm, ha', hc', hm']
  exact State.shiftIn_mask_congr hacc hcnt hmask (maskBit a)

/-- Settles O29: the pair is R88's by its formula, and the mask half a shift-in, field by field. -/
theorem pixEncodesOnePixel : Obligations.PixEncodesOnePixel := by
  intro r g b a s packed hi lo bits
  have hpair : quantizeRgb565 r g b a = (BitVec.ofNat 8 hi, BitVec.ofNat 8 lo) := by
    rw [quantizerComputesThePair r g b a]
    simp only [hi, lo]
    split <;> rfl
  have hbits : shiftedIn s.acc (maskBit a) = BitVec.ofNat 8 bits := by
    rw [shiftedIn_eq_ofNat, maskBit_toNat]
  obtain ⟨hacc, hcnt, hmask⟩ := s.encodePixel_mask { r := r, g := g, b := b, a := a }
  simp only [cnt_toNat_eq_seven, ← hbits]
  rw [exec_pix]
  refine congrArg _ (State.eq_of_fields ?regAcc ?regCnt ?pix ?mask (s.encodePixel_frames _) (s.encodePixel_cmd _))
  case regAcc => rw [hacc, State.shiftIn_acc]
  case regCnt => rw [hcnt, State.shiftIn_cnt]
  case pix => rw [State.encodePixel_pixOut, Sample.pair, hpair]
  case mask => rw [hmask, State.shiftIn_maskOut]

/-! ### A group of eight bits (R115) -/

/-- Settles O41: the byte is the group's value, whose first bit is the most significant. -/
theorem groupIsPackedMostSignificantFirst : Obligations.GroupIsPackedMostSignificantFirst := by
  intro m0 m1 m2 m3 m4 m5 m6 m7 group
  refine ⟨?_, fun j => packGroup_getLsbD rfl⟩
  have hvalue : (packGroup group).toNat = bitsValue group := packGroup_toNat (by simp [group])
  simp only [hvalue, bitsValue, group, List.foldl_cons, List.foldl_nil]
  omega

/-! ### Flush with deficit padding (R116) -/

/-- Flush writes `ACC`, `CNT` and MASK only (R116, R117). -/
theorem State.flush_eq (s : State) (mode : PadMode) :
    s.flush mode = { s with acc := 0#8, cnt := 0#3, maskOut := (s.flush mode).maskOut } :=
  State.eq_of_fields rfl rfl (s.flush_pixOut mode) rfl (s.flush_frames mode) (s.flush_cmd mode)

/-- A 0 bit shifts `ACC` up (R112). -/
theorem shiftedIn_false (acc : Byte) : shiftedIn acc false = acc <<< 1 :=
  BitVec.or_zero

/-- The last missing 0 bit is the flush of seven pending ones (R112, R116). -/
theorem State.flush_deficit_eq_shiftIn_false {s : State} (h : s.cnt = 7#3) :
    s.flush .deficit = s.shiftIn false := by
  rw [State.shiftIn_completes s false h, shiftedIn_false, State.flush, State.flushDeficit, h]
  rfl

/-- A 0 bit that stays pending is one of the pad bits the flush would have added (R112, R116). -/
theorem State.flush_deficit_shiftIn_false {s : State} (hzero : s.cnt ≠ 0#3) (hseven : s.cnt ≠ 7#3) :
    (s.shiftIn false).flush .deficit = s.flush .deficit := by
  have hlt := s.cnt.isLt
  have hne := mt (cnt_toNat_eq_seven s.cnt).mp hseven
  have hcnt : (s.shiftIn false).cnt.toNat = s.cnt.toNat + 1 := by rw [State.shiftIn_cnt_toNat]; omega
  have hzero' : (s.shiftIn false).cnt ≠ 0#3 := mt (cnt_toNat_eq_zero _).mpr (by omega)
  have hbyte : shiftedIn s.acc false <<< (8 - (s.cnt.toNat + 1)) = s.acc <<< (8 - s.cnt.toNat) := by
    rw [shiftedIn_false, ← BitVec.shiftLeft_add]
    congr 1
    omega
  have hmask : ((s.shiftIn false).flush .deficit).maskOut = (s.flush .deficit).maskOut := by
    rw [State.flush_deficit_maskOut, State.flush_deficit_maskOut, if_neg hzero', if_neg hzero, State.shiftIn_maskOut,
      if_neg hseven, hcnt, State.shiftIn_acc, if_neg hseven, hbyte]
  exact State.eq_of_fields rfl rfl (by simp) hmask (by simp) (by simp)

/-- Shifting in the missing 0 bits is flushing (R116). -/
theorem State.foldl_shiftIn_zeros {s : State} {k : Nat} (hzero : s.cnt ≠ 0#3) (hk : s.cnt.toNat + (k + 1) = 8) :
    (List.replicate (k + 1) false).foldl State.shiftIn s = s.flush .deficit := by
  induction k generalizing s with
  | zero =>
    have hseven : s.cnt = 7#3 := (cnt_toNat_eq_seven s.cnt).mp (by omega)
    exact (State.flush_deficit_eq_shiftIn_false hseven).symm
  | succ k ih =>
    have hseven : s.cnt ≠ 7#3 := mt (cnt_toNat_eq_seven s.cnt).mpr (by omega)
    have hcnt := s.shiftIn_cnt_toNat false
    have hzero' : (s.shiftIn false).cnt ≠ 0#3 := mt (cnt_toNat_eq_zero _).mpr (by omega)
    rw [List.replicate_succ, List.foldl_cons, ih hzero' (by omega), State.flush_deficit_shiftIn_false hzero hseven]

/-- Settles O44: one byte unless nothing is pending, and each 0 bit shifted in is one pad bit less. -/
theorem flushPadsWithZeroBits : Obligations.FlushPadsWithZeroBits := by
  intro s
  refine ⟨fun hcnt => ?none, fun hcnt => ⟨?byte, ?shiftIns⟩⟩
  case none => rw [State.flush_eq, State.flush_deficit_maskOut, if_pos hcnt]
  case byte =>
    rw [State.flush_eq, State.flush_deficit_maskOut, if_neg hcnt, ← Nat.shiftLeft_eq]
    rfl
  case shiftIns =>
    have hlt := s.cnt.isLt
    obtain ⟨k, hk⟩ : ∃ k, 8 - s.cnt.toNat = k + 1 := ⟨7 - s.cnt.toNat, by omega⟩
    rw [hk, State.foldl_shiftIn_zeros hcnt (by omega)]

/-! ### Flush with remainder padding (R117) -/

/-- What a remainder flush leaves on the MASK stream: up to four pending bits fit one byte with their pad bits, more of
them take two (R117). -/
theorem State.flush_remainder_maskOut (s : State) :
    (s.flush .remainder).maskOut = s.maskOut ++
      if s.cnt.toNat = 0 then []
      else if s.cnt.toNat ≤ 4 then [s.acc <<< s.cnt.toNat]
      else [s.acc <<< (8 - s.cnt.toNat), 0x00#8] := by
  simp only [State.flush, State.flushRemainder, State.setMaskRegs_maskOut]
  by_cases hzero : s.cnt.toNat = 0
  · simp [hzero]
  by_cases hthree : s.cnt.toNat ≤ 3
  · simp [hzero, hthree, show s.cnt.toNat ≤ 4 by omega]
  by_cases hfour : s.cnt.toNat = 4
  · simp [hfour]
  · simp [hzero, hthree, hfour, show ¬s.cnt.toNat ≤ 4 by omega]

/-- Full groups are packed on their own, before the rest, in either mode (R114, R119). -/
theorem packLiteral_append (mode : PadMode) {left : List Bool} (right : List Bool) (h : left.length % 8 = 0) :
    packLiteral mode (left ++ right) = packAlphaMask left ++ packLiteral mode right := by
  induction left using bits_induction with
  | short left hshort =>
    have hnil : left = [] := List.eq_nil_of_length_eq_zero (by omega)
    simp [hnil]
  | group g left hg ih =>
    rw [List.length_append] at h
    rw [List.append_assoc, packLiteral_group_append _ _ _ hg, packAlphaMask_group_append _ hg, ih (by omega),
      List.cons_append]

/-- The packing of a sequence in either mode: its full groups, then the rest (R114, R119). -/
theorem packLiteral_split (mode : PadMode) (bits : List Bool) :
    packLiteral mode bits = packAlphaMask (bits.take (groupedBits bits.length)) ++
      packLiteral mode (bits.drop (groupedBits bits.length)) := by
  have hfull : (bits.take (groupedBits bits.length)).length % 8 = 0 := by
    rw [length_take_groupedBits, groupedBits, Nat.mul_mod_right]
  rw [← packLiteral_append mode _ hfull, List.take_append_drop]

/-- Up to eight padded bits are one byte (R114). -/
theorem packLiteral_of_padded_le {mode : PadMode} {bits : List Bool} (hpos : 0 < (padded mode bits).length)
    (h : (padded mode bits).length ≤ 8) : packLiteral mode bits = [packGroup (padded mode bits)] := by
  have hceil : ceilDiv (padded mode bits).length 8 = 1 := by simp only [ceilDiv]; omega
  simp [packLiteral, hceil, groupAt, List.take_of_length_le h]

/-- A full group and up to eight padded bits more are two bytes (R114). -/
theorem packLiteral_of_padded_eq_append {mode : PadMode} {bits g rest : List Bool} (h : padded mode bits = g ++ rest)
    (hg : g.length = 8) (hpos : 0 < rest.length) (hrest : rest.length ≤ 8) :
    packLiteral mode bits = [packGroup g, packGroup rest] := by
  have hceil : ceilDiv (g ++ rest).length 8 = 2 := by simp only [ceilDiv, List.length_append]; omega
  have hfirst : groupAt (g ++ rest) 0 = g := List.take_left' hg
  have hsecond : groupAt (g ++ rest) 1 = rest := by
    rw [groupAt, List.drop_left' hg, List.take_of_length_le hrest]
  rw [packLiteral, h, hceil]
  simp [List.range_succ, hfirst, hsecond]

/-- Remainder padding doubles a short group (R117). -/
theorem padded_remainder_short {bits : List Bool} (h : bits.length ≤ 7) :
    padded .remainder bits = bits ++ List.replicate bits.length false := by
  rw [padded, padCount, Nat.mod_eq_of_lt (by omega)]

/-- Zero bits below a number shift it up within its byte (R116, R117). -/
theorem packGroup_append_replicate {acc : Byte} {bits : List Bool} {k : Nat} (hacc : acc.toNat = bitsValue bits)
    (h : bits.length + k ≤ 8) : packGroup (bits ++ List.replicate k false) = acc <<< k := by
  have hlen : (bits ++ List.replicate k false).length ≤ 8 := by simpa using h
  apply BitVec.eq_of_toNat_eq
  rw [packGroup_toNat hlen, BitVec.toNat_shiftLeft, hacc, Nat.shiftLeft_eq, ← bitsValue_append_zeros,
    Nat.mod_eq_of_lt (bitsValue_lt_256 hlen)]

/-- What the literal loop makes of a short group and its remainder padding (R114, R117). -/
theorem packLiteral_remainder_short {acc : Byte} {bits : List Bool} (hacc : acc.toNat = bitsValue bits)
    (h : bits.length ≤ 7) :
    packLiteral .remainder bits =
      if bits.length = 0 then []
      else if bits.length ≤ 4 then [acc <<< bits.length]
      else [acc <<< (8 - bits.length), 0x00#8] := by
  have hpadded := padded_remainder_short h
  have hlen : (padded .remainder bits).length = bits.length + bits.length := by
    rw [hpadded, List.length_append, List.length_replicate]
  split_ifs with hzero hfour
  case pos => rw [List.eq_nil_of_length_eq_zero hzero]; rfl
  case pos =>
    rw [packLiteral_of_padded_le (by omega) (by omega), hpadded, packGroup_append_replicate hacc (by omega)]
  case neg =>
    have htop : packGroup (bits ++ List.replicate (8 - bits.length) false) = acc <<< (8 - bits.length) :=
      packGroup_append_zeros hacc (by omega)
    have hzeros : packGroup (List.replicate (2 * bits.length - 8) false) = 0x00#8 :=
      (packGroup_append_replicate (acc := 0#8) (bits := []) rfl (by rw [List.length_nil]; omega)).trans
        (BitVec.zero_shiftLeft _)
    have htwo : padded .remainder bits =
        (bits ++ List.replicate (8 - bits.length) false) ++ List.replicate (2 * bits.length - 8) false := by
      rw [hpadded, List.append_assoc, List.replicate_append_replicate]
      congr 2
      omega
    rw [packLiteral_of_padded_eq_append htwo (by simp; omega) (by simp; omega) (by simp; omega), htop,
      hzeros]

/-! ### A whole sequence of mask bits (R114, R120) -/

/-- Mask bits touch neither the PIX stream nor the frames nor the inputs (R112). -/
theorem State.foldl_shiftIn_frame (s : State) (bits : List Bool) :
    (bits.foldl State.shiftIn s).pixOut = s.pixOut ∧ (bits.foldl State.shiftIn s).frames = s.frames ∧
      (bits.foldl State.shiftIn s).cmd = s.cmd := by
  induction bits generalizing s with
  | nil => exact ⟨rfl, rfl, rfl⟩
  | cons m bits ih => simpa using ih (s.shiftIn m)

/-- A remainder flush completes the literal packing of all the bits (R114, R117). -/
theorem State.HoldsMask.flush_remainder_maskOut {s : State} {out : List Byte} {bits : List Bool}
    (h : s.HoldsMask out bits) : (s.flush .remainder).maskOut = out ++ packLiteral .remainder bits := by
  have hcnt : s.cnt.toNat = (bits.drop (groupedBits bits.length)).length := by rw [h.cnt, length_drop_groupedBits]
  rw [State.flush_remainder_maskOut, h.maskOut, packLiteral_split, packLiteral_remainder_short h.acc (by omega), hcnt,
    List.append_assoc]

/-- In either mode a flush completes the literal packing of all the bits (R114, R116, R117). -/
theorem State.HoldsMask.flush_maskOut_eq_packLiteral {s : State} {out : List Byte} {bits : List Bool}
    (h : s.HoldsMask out bits) (mode : PadMode) : (s.flush mode).maskOut = out ++ packLiteral mode bits := by
  cases mode with
  | deficit => rw [h.flush_maskOut, packAlphaMask_eq_packLiteral]
  | remainder => exact h.flush_remainder_maskOut

/-- Settles O43: from a group boundary the encoder holds the bits, and a flush completes their packing. -/
theorem encoderAgreesWithTheLiteralLoop : Obligations.EncoderAgreesWithTheLiteralLoop := by
  intro mode s bits hacc hcnt
  have hholds := (State.HoldsMask.nil hacc hcnt).foldl_shiftIn bits
  obtain ⟨hpix, hframes, hcmd⟩ := s.foldl_shiftIn_frame bits
  rw [State.flush_eq, hholds.flush_maskOut_eq_packLiteral mode, List.nil_append]
  exact State.eq_of_fields hacc.symm hcnt.symm hpix rfl hframes hcmd

/-- Settles O42: `pack_alpha_mask` is the literal packing with deficit padding. -/
theorem encoderEmitsPackAlphaMask : Obligations.EncoderEmitsPackAlphaMask := by
  intro s bits hacc hcnt
  rw [packAlphaMask_eq_packLiteral, encoderAgreesWithTheLiteralLoop .deficit s bits hacc hcnt]

/-! ### The mask bits of a frame (R111, R123, R188) -/

/-- The mask bits of a frame, by their alphas (R110, R111). -/
theorem maskBits_eq (samples : List Sample) : maskBits samples = samples.map fun p => decide (p.a ≠ 0) :=
  List.map_congr_left fun p _ => maskBit_eq p.a

/-- Pixels take no input from the stream of those to come (R140). -/
theorem State.foldl_encodePixel_cmd (s : State) (samples : List Sample) :
    (samples.foldl State.encodePixel s).cmd = s.cmd := by
  induction samples generalizing s with
  | nil => rfl
  | cons p samples ih => rw [List.foldl_cons, ih, State.encodePixel_cmd]

/-- Settles O47: the encoder holds the frame's mask bits, and the pairs are on PIX. -/
theorem unfinishedFrameHoldsItsLastBits : Obligations.UnfinishedFrameHoldsItsLastBits := by
  rintro s samples ⟨hacc, hcnt, hpix, hmask⟩ bits
  have hholds := (State.HoldsMask.nil hacc hcnt).foldl_encodePixel samples
  have hbits : [] ++ maskBits samples = bits := maskBits_eq samples
  have hlen : bits.length = samples.length := List.length_map _
  rw [hmask, hbits] at hholds
  obtain ⟨hmask', hcnt', hacc'⟩ := hholds
  rw [hlen, groupedBits] at hmask' hacc'
  rw [hlen] at hcnt'
  refine ⟨?state, pixelBuffer_length samples, ?length⟩
  case state =>
    have hexec := execAll_pixels samples [] s
    rw [List.append_nil] at hexec
    rw [hexec]
    refine congrArg _ (State.eq_of_fields ?acc ?cnt ?pix hmask' (s.foldl_encodePixel_frames samples)
      (s.foldl_encodePixel_cmd samples))
    case acc => rw [← hacc', BitVec.ofNat_toNat, BitVec.setWidth_eq]
    case cnt => rw [← hcnt', BitVec.ofNat_toNat, BitVec.setWidth_eq]
    case pix => rw [State.foldl_encodePixel_pixOut, hpix, List.nil_append]
  case length => rw [packAlphaMask_length, List.length_take, hlen]; omega

/-- The mask bit of pixel `i` is read where R44 puts it (R44, R121). -/
theorem maskBitOf_packAlphaMask {bits : List Bool} {i : Nat} (h : i < bits.length) :
    maskBitOf (packAlphaMask bits) i = some (bits.getD i false) := by
  have hq : i / 8 < (packAlphaMask bits).length := by rw [packAlphaMask_length]; omega
  have hbyte := List.getElem?_eq_getElem hq
  rw [maskBitOf, hbyte, Option.map_some, packAlphaMask_getLsbD hbyte (Nat.mod_lt i (by decide)), Nat.div_add_mod]

/-- The mask buffer of a frame tells of each pixel whether its alpha is 0 (R44, R110). -/
theorem maskBitOf_encodeFrame {samples : List Sample} {i : Nat} {p : Sample} (h : samples[i]? = some p) :
    maskBitOf (encodeFrame samples).mask i = some (decide (p.a ≠ 0)) := by
  have hi : i < (maskBits samples).length := by
    rw [maskBits, List.length_map]
    exact (List.getElem?_eq_some_iff.mp h).1
  rw [encodeFrame, maskBitOf_packAlphaMask hi, maskBits_getD, h]
  rfl

/-- Settles O53: each mask bit is read from the frame's packing, each pair at its two offsets. -/
theorem maskAndSentinelAgree : Obligations.MaskAndSentinelAgree := by
  intro s samples hs
  refine ⟨_, frameYields_encodeFrame hs samples, fun i p hp => ?_⟩
  obtain ⟨hhi, hlo⟩ := pixelBuffer_getElem? hp
  have hpair : p.a = 0 ↔ p.pair.1 = 0xFF#8 ∧ p.pair.2 = 0xFE#8 :=
    (quantizeRgb565_eq_sentinel_iff p.r p.g p.b p.a).symm.trans Prod.ext_iff
  rw [maskBitOf_encodeFrame hp, encodeFrame, hhi, hlo]
  simpa using hpair

end Sys2Proof.Machine

/-! Proofs of the statements of `42_commands.md`: the end of a frame, a frame's commands as a whole, several frames by
the machine's own steps, and a frame that is never ended. -/

namespace Sys2Proof.Machine

/-! ### `END` (R116, R141, R145) -/

/-- A shift within eight bits, as the byte of a number (R116). -/
theorem shiftLeft_eq_ofNat (acc : Byte) (k : Nat) : acc <<< k = BitVec.ofNat 8 (acc.toNat * 2 ^ k % 256) := by
  apply BitVec.eq_of_toNat_eq
  rw [BitVec.toNat_shiftLeft, BitVec.toNat_ofNat, Nat.shiftLeft_eq, Nat.mod_mod]

/-- `END` clears the frame in progress and completes a frame; nothing else changes (R141). -/
theorem State.closeFrame_eq (s : State) : s.closeFrame hardwareConfig =
    { s with
      acc := 0#8, cnt := 0#3, pixOut := [], maskOut := []
      frames := s.frames ++ [{ pix := s.pixOut, mask := (s.flush .deficit).maskOut }] } :=
  State.eq_of_fields rfl rfl rfl rfl s.closeFrame_hardware_frames (s.closeFrame_cmd _)

/-- Settles O30: the mask buffer is MASK after the flush, whose byte is the shifted `ACC`. -/
theorem endClosesTheFrame : Obligations.EndClosesTheFrame := by
  intro s lastByte
  have hbyte : s.acc <<< (8 - s.cnt.toNat) = BitVec.ofNat 8 lastByte := shiftLeft_eq_ofNat _ _
  rw [exec_endFrame, State.closeFrame_eq, State.flush_deficit_maskOut, hbyte]
  simp only [cnt_toNat_eq_zero]

/-- At a frame boundary `END` completes two empty buffers (R145). -/
theorem State.closeFrame_frames_of_atFrameStart {s : State} (h : AtFrameStart s) :
    (s.closeFrame hardwareConfig).frames = s.frames ++ [{ pix := [], mask := [] }] := by
  obtain ⟨-, hcnt, hpix, hmask⟩ := h
  rw [State.closeFrame_hardware_frames, State.flush_deficit_maskOut, if_pos hcnt, hpix, hmask]

/-- Settles O34: nothing is pending, so nothing is flushed into the empty buffers. -/
theorem emptyFrameIsLegal : Obligations.EmptyFrameIsLegal := by
  intro s hs
  have hframes := State.closeFrame_frames_of_atFrameStart hs
  exact ⟨_, exec_endFrame s, s.atFrameStart_closeFrame _, hframes, State.doneStream_of_frames_append hframes⟩

/-! ### The commands of a frame (R142) -/

/-- A frame's commands change `FRAMES` only, from one frame boundary to the next (R35, R142). -/
theorem execAll_frameInstrs_of_atFrameStart {s : State} (h : AtFrameStart s) (samples : List Sample) :
    execAll (frameInstrs samples) s = .next { s with frames := s.frames ++ [encodeFrame samples] } := by
  obtain ⟨t, hexec, hframes⟩ := frameYields_encodeFrame h samples
  obtain ⟨hacc, hcnt, hpix, hmask⟩ := h
  rw [execAll_frameInstrs] at hexec ⊢
  cases hexec
  have hcmd : ((samples.foldl State.encodePixel s).closeFrame hardwareConfig).cmd = s.cmd := by
    rw [State.closeFrame_cmd, State.foldl_encodePixel_cmd]
  exact congrArg _ (State.eq_of_fields hacc.symm hcnt.symm hpix.symm hmask.symm hframes hcmd)

/-- Settles O48: the frame completed is `encode_frame` of the samples, whose buffers are as long as R142 says. -/
theorem frameCommandsEncodeTheFrame : Obligations.FrameCommandsEncodeTheFrame := by
  intro s samples hs
  have hmask : (encodeFrame samples).mask = packAlphaMask (samples.map fun p => decide (p.a ≠ 0)) := by
    rw [encodeFrame, maskBits_eq]
  refine ⟨execAll_frameInstrs_of_atFrameStart hs samples, List.flatMap_def, hmask, pixelBuffer_length samples, ?_⟩
  rw [hmask, packAlphaMask_length, List.length_map]

/-! ### Several frames, by the machine's own steps (R54, R144) -/

/-- No command reads or takes the inputs to come (R40). -/
theorem exec_withCmd (s : State) (cmd : List Input) (i : Instr) :
    exec i { s with cmd := cmd } = .next { s.afterInstr i with cmd := cmd } := by
  cases i with
  | pix r g b a =>
    have hpix := pixEncodesOnePixel r g b a s
    rw [exec_eq_next] at hpix
    rw [pixEncodesOnePixel, Host.Outcome.next.inj hpix]
  | endFrame =>
    have hend := endClosesTheFrame s
    rw [exec_eq_next] at hend
    rw [endClosesTheFrame, Host.Outcome.next.inj hend]

/-- Commands one after the other always complete (R54, R160). -/
theorem execAll_eq_next (instrs : List Instr) (s : State) :
    execAll instrs s = .next (instrs.foldl State.afterInstr s) := by
  induction instrs generalizing s with
  | nil => rfl
  | cons i instrs ih => rw [execAll, exec_eq_next]; exact ih _

/-- Commands go on where those before them have led (R54). -/
theorem execAll_append {before : List Instr} {s t : State} (h : execAll before s = .next t) (after : List Instr) :
    execAll (before ++ after) s = execAll after t := by
  rw [execAll_eq_next] at h
  cases h
  rw [execAll_eq_next, execAll_eq_next, List.foldl_append]

/-- The steps on the words of some commands execute them in the state without those words (R16, R54, R143). -/
theorem stepMany_commands (instrs : List Instr) (s : State) (rest : List Input) :
    stepMany instrs.length { s with cmd := (instrs.map fun i => .command (encode i)) ++ rest } =
      execAll instrs { s with cmd := rest } := by
  induction instrs generalizing s with
  | nil => rfl
  | cons i instrs ih =>
    rw [List.map_cons, List.cons_append, List.length_cons, stepMany, step_command, decode_encode, execAll,
      exec_withCmd s, exec_withCmd s]
    exact ih (s.afterInstr i)

/-- Frames one after the other are encoded each on its own: each leaves a frame boundary to the next (R35, R144). -/
theorem execAll_frames {s : State} (h : AtFrameStart s) (fs : List (List Sample)) :
    execAll (fs.flatMap frameInstrs) s = .next { s with frames := s.frames ++ fs.map encodeFrame } := by
  induction fs generalizing s with
  | nil => rw [List.map_nil, List.append_nil]; rfl
  | cons samples fs ih =>
    rw [List.flatMap_cons, execAll_append (execAll_frameInstrs_of_atFrameStart h samples),
      ih (s := { s with frames := s.frames ++ [encodeFrame samples] }) h, List.append_assoc]
    rfl

/-- The inputs of a run of frames are the words of its commands. -/
theorem flatMap_frameInputs (fs : List (List Sample)) :
    fs.flatMap frameInputs = (fs.flatMap frameInstrs).map fun i => .command (encode i) :=
  List.map_flatMap.symm

/-- Settles O49: the steps execute the frames' commands, and each frame starts at a boundary. -/
theorem framesAreIndependent : Obligations.FramesAreIndependent := by
  intro s fs rest hs
  rw [flatMap_frameInputs, List.length_map, stepMany_commands]
  exact execAll_frames (s := { s with cmd := rest }) hs fs

/-! ### A frame that is never ended (R146) -/

/-- A pixel leaves the MASK bytes already emitted (R49, R113). -/
theorem State.maskOut_prefix_encodePixel (s : State) (p : Sample) : s.maskOut <+: (s.encodePixel p).maskOut := by
  rw [State.encodePixel_maskOut]
  split
  · exact List.prefix_append _ _
  · exact List.prefix_rfl

/-- Pixels leave the MASK bytes already emitted (R49, R113). -/
theorem State.maskOut_prefix_foldl_encodePixel (s : State) (samples : List Sample) :
    s.maskOut <+: (samples.foldl State.encodePixel s).maskOut := by
  induction samples generalizing s with
  | nil => exact List.prefix_rfl
  | cons p samples ih => exact (s.maskOut_prefix_encodePixel p).trans (ih _)

/-- With nothing more to come, any number of steps is waiting (R146, R186). -/
theorem stepMany_of_cmd_nil {s : State} (h : s.cmd = []) (k : Nat) : stepMany k s = .next s := by
  induction k with
  | zero => rfl
  | succ k ih => rw [stepMany, step_nil h]; exact ih

/-- Settles O50: pixels append to the two streams and to nothing else, and with no input left a step waits. -/
theorem unendedFrameIsNotComplete : Obligations.UnendedFrameIsNotComplete := by
  intro s samples hcmd
  have hexec := execAll_pixels samples [] s
  rw [List.append_nil] at hexec
  have hframes := s.foldl_encodePixel_frames samples
  refine ⟨_, hexec, ?pix, s.maskOut_prefix_foldl_encodePixel samples, hframes, State.doneStream_congr hframes,
    stepMany_of_cmd_nil ?cmd⟩
  case pix => rw [State.foldl_encodePixel_pixOut]; exact List.prefix_append _ _
  case cmd => rw [State.foldl_encodePixel_cmd, hcmd]

end Sys2Proof.Machine

/-! Proofs of the statements of `60_exceptions.md`: nothing faults, reset over a command, and waiting for one. -/

namespace Sys2Proof.Machine

/-! ### Every step has a next state (R160) -/

/-- A step with input `e` first in the stream takes it and goes where `e` leads (R16, R54, R180, R186). -/
theorem step_input (s : State) (e : Input) (rest : List Input) :
    step { s with cmd := e :: rest } = .next (({ s with cmd := rest } : State).afterInput e) :=
  step_cons (s := { s with cmd := e :: rest }) rfl

/-- No step faults or is refused: it waits with nothing sent, and every input leads to a state (R160). -/
theorem stepSafe (s : State) : StepSafe s := by
  cases h : s.cmd with
  | nil => exact ⟨s, step_nil h⟩
  | cons e rest => exact ⟨_, step_cons h⟩

/-- Settles O7: every input of a step and every command leads to a state. -/
theorem everyStepHasANextState : Obligations.EveryStepHasANextState :=
  ⟨stepSafe, fun i s => ⟨s.afterInstr i, exec_eq_next i s⟩⟩

/-! ### Reset over a coinciding command (R162, R182) -/

@[simp] theorem State.applyReset_pixLog (s : State) : s.applyReset.pixLog = [] := rfl
@[simp] theorem State.applyReset_maskLog (s : State) : s.applyReset.maskLog = [] := rfl
@[simp] theorem State.applyReset_doneStream (s : State) : s.applyReset.doneStream = [] := rfl

/-- Settles O3: both inputs lead to the reset of the state without them, whose histories are empty. -/
theorem resetWinsOverACoincidingCommand : Obligations.ResetWinsOverACoincidingCommand := by
  intro s w rest
  have hover := step_input s (.resetOver w) rest
  have hreset := step_input s .reset rest
  exact ⟨_, hover, hreset, State.atFrameStart_applyReset _, State.applyReset_pixLog _, State.applyReset_maskLog _,
    State.applyReset_doneStream _, State.applyReset_cmd _⟩

/-! ### Waiting for a command (R172) -/

/-- Settles O4: with nothing sent a step waits, and an idle instant leads to the state without it. -/
theorem noCommandMeansWaiting : Obligations.NoCommandMeansWaiting :=
  ⟨fun _ h => stepMany_of_cmd_nil h, fun s => step_input s .sourceIdle⟩

end Sys2Proof.Machine

/-! Proofs of the statements of `70_reset_and_hazards.md`: reset as a step, waiting for a sink, rows of the mask that
start anywhere in a byte, and scaling by the floor. -/

namespace Sys2Proof.Machine

/-! ### Reset and waiting for a sink (R180, R186) -/

/-- Settles O2: a reset leads to the reset of the state behind it. -/
theorem resetEventStartsANewHistory : Obligations.ResetEventStartsANewHistory := by
  intro s rest
  exact ⟨_, step_input s .reset rest, State.applyReset_acc _, State.applyReset_cnt _, State.applyReset_pixOut _,
    State.applyReset_maskOut _, State.applyReset_frames _⟩

/-- A stalled instant is taken from the inputs to come, and nothing else changes (R186). -/
theorem step_sinkStall (s : State) (rest : List Input) :
    step { s with cmd := .sinkStall :: rest } = .next { s with cmd := rest } :=
  step_input s .sinkStall rest

/-- Settles O5, by induction on the length of the stall. -/
theorem stalledSinkMeansWaiting : Obligations.StalledSinkMeansWaiting := by
  intro s n rest
  induction n with
  | zero => rfl
  | succ n ih =>
    rw [List.replicate_succ, List.cons_append, stepMany, step_sinkStall]
    exact ih

/-! ### The mask bits of an image's rows (R8, R193) -/

/-- Every pixel of an image is one of its `w h` samples (R8). -/
theorem pixelIndex_lt {w h x y : Nat} (hx : x < w) (hy : y < h) : pixelIndex w x y < w * h :=
  calc y * w + x < y * w + w := Nat.add_lt_add_left hx _
    _ = (y + 1) * w := (Nat.succ_mul y w).symm
    _ ≤ h * w := Nat.mul_le_mul_right w hy
    _ = w * h := Nat.mul_comm h w

/-- A mask bit is read from the byte that holds it (R44). -/
theorem maskBitOf_eq_some_iff {mask : List Byte} {i : Nat} {m : Bool} :
    maskBitOf mask i = some m ↔ ∃ byte, mask[i / 8]? = some byte ∧ byte.getLsbD (7 - i % 8) = m :=
  Option.map_eq_some_iff

/-- Settles O54: a pixel of the image is a sample of the frame, and a frame's mask is packed over all its samples, so
the width enters by the pixel's index only. -/
theorem maskRowsAreNotByteAligned : Obligations.MaskRowsAreNotByteAligned := by
  intro s samples w h hs hlen
  refine ⟨_, frameYields_encodeFrame hs samples, fun x y hx hy => ?_⟩
  have hi : pixelIndex w x y < samples.length := hlen ▸ pixelIndex_lt hx hy
  have hp := List.getElem?_eq_getElem hi
  have hbit := maskBitOf_encodeFrame hp
  obtain ⟨byte, hbyte, hplace⟩ := maskBitOf_eq_some_iff.mp hbit
  exact ⟨_, byte, hp, hbyte, hplace, hbit⟩

/-! ### Scaling is by the floor (R195) -/

/-- Below the full byte five bits stay below full scale (R80). -/
theorem scale5_lt_full {x : Byte} (h : x ≠ 255#8) : (scale5 x).toNat < 31 :=
  Nat.lt_of_not_le fun hfull => h ((scale5_eq_full_iff x).mp ((eq_allOnes_iff_le_toNat (scale5 x)).mpr hfull))

/-- Below the full byte six bits stay below full scale (R81). -/
theorem scale6_lt_full {x : Byte} (h : x ≠ 255#8) : (scale6 x).toNat < 63 :=
  Nat.lt_of_not_le fun hfull => h ((scale6_eq_full_iff x).mp ((eq_allOnes_iff_le_toNat (scale6 x)).mpr hfull))

/-- Settles O20: the two counts and the three examples are computed, and full scale needs the full byte. -/
theorem scalingIsNotTruncation : Obligations.ScalingIsNotTruncation := by
  refine ⟨?five, ?six, ?eight, ?below, ?nearest, fun x hx => ⟨scale5_lt_full hx, scale6_lt_full hx⟩⟩
  case five => rfl
  case six => rfl
  case eight => decide
  case below => decide
  case nearest => decide

end Sys2Proof.Machine
